-- ==== Sys2Proof/Word.lean ====
section
/-! DEFINITION. The word types of the CRC-16 frame block (spec 00_scope.md R8, R9, R12) and the small named sets its
operands range over. Every value of the block is unsigned (R9). -/

namespace Sys2Proof

/-- A byte: `BYTE_WIDTH` = 8 bits (R8). Bit 0 is the least significant bit (R9). -/
abbrev Byte := BitVec 8

/-- A CRC word: `CRC_WIDTH` = 16 bits (R8). -/
abbrev Word := BitVec 16

/-- A command word on the command port: `CMD_WORD_WIDTH` = 16 bits (R8, R60). -/
abbrev CmdWord := BitVec 16

/-- A read-port index: `READ_INDEX_WIDTH` = 8 bits (R8, R31). -/
abbrev ReadIndex := BitVec 8

/-- The four field registers FLDWR writes, in the order of SEL[1:0] = 0, 1, 2, 3 (R25, R63). -/
inductive FieldReg where
  | addr | cmd | sub | flag
deriving DecidableEq, Repr

/-- The order in which the two bytes of a 16-bit value go through a byte-wide channel (R42; the parameter
`CMD_PORT_BYTE_ORDER` of R60). -/
inductive ByteOrder where
  | lowFirst | highFirst
deriving DecidableEq, Repr

end Sys2Proof
end

