-- ==== Sys2Proof/Config.lean ====
section
/-! DEFINITION. The parameters of rule R8 as named constants with the values the spec gives (00_scope.md R8,
92_eei_decisions.md D23), and the one free value of the model (R143). Configuration is not state (R22).

The parameters `CRC_WIDTH`, `BYTE_WIDTH`, `CMD_WORD_WIDTH` and `READ_INDEX_WIDTH` are the widths of the types of
Word.lean; `TX_FRAME_LEN` and `RX_FRAME_LEN` are the lengths of the vectors `Block.tx` and `Block.rx`;
`CRC_BIT_ORDER` (least significant bit first) is the loop of R82 (`Machine.crcByteLoop`). -/

namespace Sys2Proof.Config

/-- `CRC_WIDTH` (R8). -/
abbrev crcWidth : Nat := 16

/-- `BYTE_WIDTH` (R8). -/
abbrev byteWidth : Nat := 8

/-- `CMD_WORD_WIDTH` (R8, D2). -/
abbrev cmdWordWidth : Nat := 16

/-- `READ_INDEX_WIDTH` (R8, D6). -/
abbrev readIndexWidth : Nat := 8

/-- `CRC_SEED` (R8, R80). -/
def crcSeed : Word := 0xFFFF#16

/-- `CRC_POLY` (R8, R80; 0x8408 and not 0x84: 90_conflicts.md C1). -/
def crcPoly : Word := 0x8408#16

/-- `CRC_XOROUT`: the final result is the bitwise complement (R8, R84). -/
def crcXorOut : Word := 0xFFFF#16

/-- `CRC_BYTE_ORDER`: low byte, then high byte (R8, R42). -/
def crcByteOrder : ByteOrder := .lowFirst

/-- `CMD_FRAME_LEN`: the command frame before its CRC (R8). -/
abbrev cmdFrameLen : Nat := 8

/-- `TX_FRAME_LEN`: the outbound wire frame (R8). -/
abbrev txFrameLen : Nat := 10

/-- `RX_FRAME_LEN`: the inbound response frame (R8). -/
abbrev rxFrameLen : Nat := 8

/-- `PAYLOAD_LEN`: the response bytes before the CRC (R8). -/
abbrev payloadLen : Nat := 6

/-- `PAD_LEN`: the zero bytes that end the command frame (R8). -/
abbrev padLen : Nat := 4

/-- `DEFAULT_ADDRESS` (R8). -/
def defaultAddress : Byte := 0x02#8

/-- FREE VALUE (log entry 4, R143): the byte a read of an unmapped index answers. The first argument counts the
unmapped reads so far, so two reads of one index need not agree. It has no body: nothing can be proved of a value. -/
opaque unmappedByte : Nat → ReadIndex → Byte

end Sys2Proof.Config
end

