-- ==== Sys2Proof/Machine/State.lean ====
section
/-! DEFINITION. The state (10_state.md R22), the host's side of the two ports (43_host.md R145, R148), the error kinds
(60_exceptions.md R160) and the reset (70_reset_and_hazards.md R180). There is no memory (R40), no program counter (R21)
and no general register file (R20). -/

namespace Sys2Proof.Machine

/-- The block's state `S`: exactly the elements of R22, each under the spec's own name. -/
structure Block where
  /-- `CRCREG`, 16 bits: the raw, uncomplemented CRC register (R23). -/
  crcreg : Word
  /-- `ADDR`, 8 bits (R25). -/
  addr : Byte
  /-- `CMD`, 8 bits (R25). -/
  cmd : Byte
  /-- `SUB`, 8 bits (R25). -/
  sub : Byte
  /-- `FLAG`, 8 bits (R25). -/
  flag : Byte
  /-- `TX[0..9]`, the outbound wire image (R26). -/
  tx : Vector Byte 10
  /-- `RX[0..7]`, the inbound response image (R27). -/
  rx : Vector Byte 8
  /-- `STATUS`, 8 bits: VALID(0), CHKERR(1), ILLEGAL(2), TXRDY(3), bits 7:4 zero (R28). Its bits are named in
  Machine/Flags.lean. -/
  status : Byte
  /-- `DCALC`, 16 bits: the CRC the last VERIFY computed (R29). -/
  dcalc : Word
  /-- `DRECV`, 16 bits: the CRC the last VERIFY received (R29). -/
  drecv : Word
deriving DecidableEq, Repr

/-- `reset()` of R180. -/
def Block.reset : Block where
  crcreg := Config.crcSeed
  addr := Config.defaultAddress
  cmd := 0x00#8
  sub := 0x00#8
  flag := 0x00#8
  tx := Vector.replicate 10 0x00#8
  rx := Vector.replicate 8 0x00#8
  status := 0x00#8
  dcalc := 0x0000#16
  drecv := 0x0000#16

/-- One thing the host does at the block's boundary: what a program is a sequence of (R148), and the reset signal
(R180). -/
inductive HostEvent where
  /-- Present a word on the command port (R145). -/
  | command (w : CmdWord)
  /-- Read one byte at an index of the read port (R141). -/
  | read (i : ReadIndex)
  /-- Assert the reset signal, alone or while a command is being presented (R180, R181). -/
  | reset (presented : Option CmdWord)
deriving DecidableEq, Repr

/-- One answer of the read port: the index asked for and the byte returned (R141). -/
structure ReadAnswer where
  index : ReadIndex
  value : Byte
deriving DecidableEq, Repr

/-- The whole machine: the block (R22) and, as the MODEL's own fields, what the host has still to do at the ports, what
it has read, and the counter of the free value (log entries 1, 3, 4). -/
structure State where
  /-- The block's state (R22). -/
  block : Block
  /-- The host's events not yet taken, in issue order (R14, R148). MODEL's own (log entry 1). -/
  pending : List HostEvent
  /-- What the host has read, oldest first (R141). MODEL's own (log entry 3). -/
  answers : List ReadAnswer
  /-- How many unmapped reads have drawn a free byte (R143). MODEL's own (log entry 4). -/
  draws : Nat
deriving DecidableEq, Repr

/-- Reset: the block at the values of R180. The host has issued nothing yet (log entry 1). -/
def State.reset : State where
  block := Block.reset
  pending := []
  answers := []
  draws := 0

/-- The three error kinds (R160). None of them stops the block: an error is recorded in STATUS (R167). -/
inductive ErrorKind where
  /-- Code 1: a VERIFY whose CRCs differ (R162). -/
  | checksum
  /-- Code 2: a word that is not legal (R164). -/
  | illegalCommand
  /-- Code 3: an input of `buildCommand` outside 0–255; it cannot arise on the block (R102, R163). -/
  | format
deriving DecidableEq, Repr

/-- The error a pure function returns, with its diagnostics (R160). -/
inductive Error where
  /-- `verifyAndStrip`'s: the full frame, the computed CRC bytes and the received ones (R121). -/
  | checksum (frame expected received : List Byte)
  /-- `buildCommandChecked`'s: the four inputs (R101). -/
  | format (a c s f : Int)
deriving DecidableEq, Repr

/-- No fault exists: "The step always returns a next state: it never hangs, never refuses and never returns a fault
value. Faults are recorded in STATUS" (R146). The type has no constructor, so no step can answer one; that is as the
spec says, neither safe nor unsafe. -/
inductive Fault
deriving DecidableEq, Repr

/-- Refusals of the model. -/
inductive Refusal where
  /-- Raised by an arm of `exec` for an instruction that has no meaning yet (safe). No arm raises it. -/
  | notModelled (mnemonic : String)
deriving DecidableEq, Repr

end Sys2Proof.Machine
end

