-- ==== Sys2Proof/Machine/Flags.lean ====
section
/-! DEFINITION. The bits of STATUS (10_state.md R28). They are the block's only flags (R33): the CRC arithmetic has no
carry, zero, sign or overflow flag. Each write touches one bit and leaves the other seven as they are. -/

namespace Sys2Proof.Machine

/-- The named bits of STATUS (R28). -/
inductive StatusBit where
  | valid | chkerr | illegal | txrdy
deriving DecidableEq, Repr

/-- The bit's position in STATUS (R28). -/
def StatusBit.position : StatusBit → Nat
  | .valid => 0
  | .chkerr => 1
  | .illegal => 2
  | .txrdy => 3

/-- The byte with only that bit set. -/
def StatusBit.mask : StatusBit → Byte
  | .valid => 0x01#8
  | .chkerr => 0x02#8
  | .illegal => 0x04#8
  | .txrdy => 0x08#8

/-- `STATUS.k <- 1`. -/
def statusSet (k : StatusBit) (v : Byte) : Byte := v ||| k.mask

/-- `STATUS.k <- 0`. -/
def statusClear (k : StatusBit) (v : Byte) : Byte := v &&& ~~~k.mask

/-- Read one bit of a STATUS byte. -/
def statusBit (k : StatusBit) (v : Byte) : Bool := v.getLsbD k.position

/-- `STATUS.VALID = 1`: the last VERIFY matched and RX has not been written since (R28). -/
def Block.valid (b : Block) : Bool := statusBit .valid b.status

/-- `STATUS.CHKERR = 1`: the last VERIFY mismatched and RX has not been written since (R28). -/
def Block.chkerr (b : Block) : Bool := statusBit .chkerr b.status

/-- `STATUS.ILLEGAL = 1`: an illegal command has been presented since reset (R28). -/
def Block.illegal (b : Block) : Bool := statusBit .illegal b.status

/-- `STATUS.TXRDY = 1`: TX holds the wire image of the current field registers (R28). -/
def Block.txrdy (b : Block) : Bool := statusBit .txrdy b.status

/-- `S.STATUS.k <- 1` on the block. -/
def Block.raise (k : StatusBit) (b : Block) : Block := { b with status := statusSet k b.status }

/-- `S.STATUS.k <- 0` on the block. -/
def Block.lower (k : StatusBit) (b : Block) : Block := { b with status := statusClear k b.status }

end Sys2Proof.Machine
end

