-- ==== Sys2Proof/Syntax.lean ====
section
/-! DEFINITION. The seven commands of the block, one constructor per row of spec/opcode_table.json (30_encoding.md R62).
Operands carry their range in their type: SEL[1:0] is a `FieldReg`, SEL[2:0] a `Fin 8`, DATA a byte (R61, R63), so every
term is a well-formed command. The forms with unbounded integer operands (R70, R101) are in WellFormed.lean. -/

namespace Sys2Proof

/-- A legal command (R62). -/
inductive Instr where
  /-- `NOP` (R140). -/
  | nop
  /-- `CRCINIT` (R86). -/
  | crcinit
  /-- `CRCBYTE d`: DATA = `d` (R87). -/
  | crcbyte (d : Byte)
  /-- `FLDWR f, d`: SEL[1:0] = `f`, DATA = `d` (R104). -/
  | fldwr (f : FieldReg) (d : Byte)
  /-- `BUILD` (R105). -/
  | build
  /-- `RXWR i, d`: SEL[2:0] = `i`, DATA = `d` (R126). -/
  | rxwr (i : Fin 8) (d : Byte)
  /-- `VERIFY` (R127). -/
  | verify
deriving DecidableEq, Repr

end Sys2Proof
end

