-- ==== Sys2Proof/WellFormed.lean ====
section
/-! DEFINITION. Commands as a host writes them, with unbounded integer operands, and the checks that make one
well formed (30_encoding.md R70: "An operand out of its range is an assembly error, never a silently truncated field";
41_frame.md R101, R102). A term of `Instr` needs no check: its types are the ranges. -/

namespace Sys2Proof

/-- `d` is a byte 0–255 (R70, R101). -/
def isByteValue (v : Int) : Bool := decide (0 ≤ v ∧ v ≤ 255)

/-- `f` is a field index 0–3 (R63, R70). -/
def isFieldIndex (v : Int) : Bool := decide (0 ≤ v ∧ v ≤ 3)

/-- `i` is an RX index 0–7 (R63, R70). -/
def isRxIndex (v : Int) : Bool := decide (0 ≤ v ∧ v ≤ 7)

/-- A command with integer operands, before any range check (R70). -/
inductive AsmCmd where
  | nop
  | crcinit
  | crcbyte (d : Int)
  | fldwr (f d : Int)
  | build
  | rxwr (i d : Int)
  | verify
deriving DecidableEq, Repr

/-- Every operand lies in its range (R70). -/
def AsmCmd.wf : AsmCmd → Bool
  | .nop => true
  | .crcinit => true
  | .crcbyte d => isByteValue d
  | .fldwr f d => isFieldIndex f && isByteValue d
  | .build => true
  | .rxwr i d => isRxIndex i && isByteValue d
  | .verify => true

end Sys2Proof
end

