-- ==== Sys2Proof/Decode.lean ====
section
/-! DEFINITION. The command encoding (30_encoding.md): the fields of a word (R60), the opcode map (R62), legality (R64),
the decoder, which rejects every illegal word by name (R65, R66), the encoder (R70), and words carried over a byte-wide
channel, with the byte order as a parameter (R60: `CMD_PORT_BYTE_ORDER`, log entry 5). -/

namespace Sys2Proof

/-! ## The fields of a command word (R60, R61) -/

/-- `OP = w[15:12]` (R60). -/
def opOf (w : CmdWord) : BitVec 4 := w.extractLsb' 12 4

/-- `SEL = w[11:8]` (R60). -/
def selOf (w : CmdWord) : BitVec 4 := w.extractLsb' 8 4

/-- `DATA = w[7:0]`, an unsigned byte as it stands (R60, R61). -/
def dataOf (w : CmdWord) : Byte := w.extractLsb' 0 8

/-- The field a 2-bit selector names: 0 ADDR, 1 CMD, 2 SUB, 3 FLAG (R63). -/
def FieldReg.ofBits (b : BitVec 2) : FieldReg :=
  match b.toNat with
  | 0 => .addr
  | 1 => .cmd
  | 2 => .sub
  | _ => .flag

/-- The selector of a field (R63). -/
def FieldReg.index : FieldReg → Nat
  | .addr => 0
  | .cmd => 1
  | .sub => 2
  | .flag => 3

/-- FLDWR's field, `SEL[1:0] = w[9:8]` (R61). -/
def fieldOf (w : CmdWord) : FieldReg := FieldReg.ofBits (w.extractLsb' 8 2)

/-- RXWR's index, `SEL[2:0] = w[10:8]` (R61). -/
def rxIndexOf (w : CmdWord) : Fin 8 := (w.extractLsb' 8 3).toFin

/-! ## The opcode map and legality (R62, R64) -/

/-- One row of the opcode map: a word `w` selects the row when `w AND mask = pattern` (R62). -/
structure OpRow where
  mnemonic : String
  pattern : CmdWord
  mask : CmdWord
deriving DecidableEq, Repr

/-- The seven rows of R62. -/
def opRows : List OpRow :=
  [ ⟨"NOP", 0x0000#16, 0xFFFF#16⟩,
    ⟨"CRCINIT", 0x1000#16, 0xFFFF#16⟩,
    ⟨"CRCBYTE", 0x2000#16, 0xFF00#16⟩,
    ⟨"FLDWR", 0x3000#16, 0xFC00#16⟩,
    ⟨"BUILD", 0x4000#16, 0xFFFF#16⟩,
    ⟨"RXWR", 0x5000#16, 0xF800#16⟩,
    ⟨"VERIFY", 0x6000#16, 0xFFFF#16⟩ ]

/-- The word selects the row (R62, R64). -/
def OpRow.selects (r : OpRow) (w : CmdWord) : Bool := w &&& r.mask == r.pattern

/-- A word is legal when it selects some row (R64); it is illegal otherwise (R66). -/
def legal (w : CmdWord) : Bool := opRows.any (fun r => r.selects w)

/-! ## The decoder -/

/-- Why a word, or a byte stream, is no command (R65, R66). -/
inductive DecodeReject where
  /-- OP is 0x7 to 0xF (R65). -/
  | reservedOpcode (op : BitVec 4)
  /-- SEL must be zero under this opcode and is not (R66). -/
  | selNotZero (sel : BitVec 4)
  /-- DATA must be zero under this opcode and is not (R66). -/
  | dataNotZero (data : Byte)
  /-- FLDWR with SEL[3:2] ≠ 0 (R61, R66). -/
  | fieldSelector (sel : BitVec 4)
  /-- RXWR with SEL[3] = 1 (R61, R66). -/
  | rxSelector (sel : BitVec 4)
  /-- A byte stream that ends inside a word: every command is 16 bits (R68). -/
  | truncated (nbytes : Nat)
deriving DecidableEq, Repr

/-- A command without operands: bits 11:0 must be zero (R66). -/
def withoutOperands (i : Instr) (w : CmdWord) : Except DecodeReject Instr :=
  if selOf w ≠ 0 then .error (.selNotZero (selOf w))
  else if dataOf w ≠ 0 then .error (.dataNotZero (dataOf w))
  else .ok i

/-- The decoder, total over all 65 536 words (R62–R66). -/
def decodeWord (w : CmdWord) : Except DecodeReject Instr :=
  match (opOf w).toNat with
  | 0 => withoutOperands .nop w
  | 1 => withoutOperands .crcinit w
  | 2 => if selOf w ≠ 0 then .error (.selNotZero (selOf w)) else .ok (.crcbyte (dataOf w))
  | 3 =>
    if w.extractLsb' 10 2 ≠ 0 then .error (.fieldSelector (selOf w))
    else .ok (.fldwr (fieldOf w) (dataOf w))
  | 4 => withoutOperands .build w
  | 5 =>
    if w.extractLsb' 11 1 ≠ 0 then .error (.rxSelector (selOf w))
    else .ok (.rxwr (rxIndexOf w) (dataOf w))
  | 6 => withoutOperands .verify w
  | _ => .error (.reservedOpcode (opOf w))

/-! ## The encoder -/

/-- The word with the given base, selector and data: `base | sel << 8 | data` (R70). -/
def packWord (base : CmdWord) (sel : Nat) (data : Byte) : CmdWord :=
  base ||| (BitVec.ofNat 16 sel <<< 8) ||| data.setWidth 16

/-- The word of a command (R70). -/
def encode : Instr → CmdWord
  | .nop => 0x0000#16
  | .crcinit => 0x1000#16
  | .crcbyte d => packWord 0x2000#16 0 d
  | .fldwr f d => packWord 0x3000#16 f.index d
  | .build => 0x4000#16
  | .rxwr i d => packWord 0x5000#16 i.val d
  | .verify => 0x6000#16

/-! ## Bytes and words -/

/-- `w[7:0]` (R9, R120). -/
def lowByte (w : BitVec 16) : Byte := w.extractLsb' 0 8

/-- `w[15:8]` (R9, R120). -/
def highByte (w : BitVec 16) : Byte := w.extractLsb' 8 8

/-- `zext_16(hi) << 8 | zext_16(lo)` (R10, R42). -/
def joinBytes (hi lo : Byte) : BitVec 16 := (hi.setWidth 16 <<< 8) ||| lo.setWidth 16

/-- The two bytes of a 16-bit value in the given order. -/
def bytesOfWord (o : ByteOrder) (w : BitVec 16) : List Byte :=
  match o with
  | .lowFirst => [lowByte w, highByte w]
  | .highFirst => [highByte w, lowByte w]

/-- The 16-bit value two bytes carry, first byte first, in the given order. -/
def wordOfBytes (o : ByteOrder) (first second : Byte) : BitVec 16 :=
  match o with
  | .lowFirst => joinBytes second first
  | .highFirst => joinBytes first second

/-- Decode the first command of a byte stream and return the rest of the stream. `CMD_PORT_BYTE_ORDER` is the
argument `o`: the spec leaves it open (R60, I4; log entry 5). -/
def decodeBytes (o : ByteOrder) : List Byte → Except DecodeReject (Instr × List Byte)
  | first :: second :: rest => (decodeWord (wordOfBytes o first second)).map (fun i => (i, rest))
  | short => .error (.truncated short.length)

/-- The instruction the decoder reads from a table row's bits (`nbits` of them). A command is one 16-bit word on a
parallel port, numbered as the table numbers it (R9, R60), so the word is `w`'s low `nbits` bits. -/
def tableWord (nbits w : Nat) : CmdWord := BitVec.ofNat 16 (w % 2 ^ nbits)

/-- See `tableWord`. -/
def decodeTableWord (nbits w : Nat) : Option Instr := (decodeWord (tableWord nbits w)).toOption

end Sys2Proof
end

