-- ==== Sys2Proof/Machine/Operands.lean ====
section
/-! DEFINITION. What the operands of the commands name: a field register by SEL[1:0] (R63, R104) and a byte of RX by
SEL[2:0] (R63, R126). The effective "address" is the index field as it stands: no base, offset or scaling (R149). -/

namespace Sys2Proof.Machine

/-- The field register an operand names (R25). -/
def Block.field (f : FieldReg) (b : Block) : Byte :=
  match f with
  | .addr => b.addr
  | .cmd => b.cmd
  | .sub => b.sub
  | .flag => b.flag

/-- Write the field register an operand names (R104). -/
def Block.setField (f : FieldReg) (d : Byte) (b : Block) : Block :=
  match f with
  | .addr => { b with addr := d }
  | .cmd => { b with cmd := d }
  | .sub => { b with sub := d }
  | .flag => { b with flag := d }

/-- `S.RX[i] <- d` (R126). -/
def Block.setRx (i : Fin 8) (d : Byte) (b : Block) : Block := { b with rx := b.rx.set i.val d i.isLt }

end Sys2Proof.Machine
end

