-- ==== Sys2Proof/Machine/Ops.lean ====
section
/-! DEFINITION. The named operations over the registers, recording an error (the block's whole exception mechanism:
60_exceptions.md R160, R167; there is no trap and no return, R168), the views of RX and CRCREG, and the read port
(43_host.md R141–R144). Writes of one command take effect together (R11, R47). -/

namespace Sys2Proof.Machine

/-! ## Register writes -/

/-- `S.CRCREG <- v` (R23). -/
def Block.setCrcreg (v : Word) (b : Block) : Block := { b with crcreg := v }

/-- `S.TX[0..9] <- t` (R26). -/
def Block.setTx (t : Vector Byte 10) (b : Block) : Block := { b with tx := t }

/-- `S.DCALC <- computed` and `S.DRECV <- recv` (R29). -/
def Block.setDiagnostics (computed recv : Word) (b : Block) : Block := { b with dcalc := computed, drecv := recv }

/-- Replace the block, leaving the host's side alone. -/
def State.setBlock (b : Block) (s : State) : State := { s with block := b }

/-! ## Views -/

/-- `CRCOUT = NOT16(CRCREG)`, not storage (R24). -/
def Block.crcout (b : Block) : Word := b.crcreg ^^^ Config.crcXorOut

/-- `PAYLOAD = RX[0..5]` (R27). -/
def Block.payload (b : Block) : List Byte := b.rx.toList.take Config.payloadLen

/-- The received CRC, `zext_16(RX[7]) << 8 | zext_16(RX[6])` (R127). -/
def Block.received (b : Block) : Word := joinBytes b.rx[7] b.rx[6]

/-! ## Recording an error -/

/-- The code of an error kind (R160). -/
def ErrorKind.code : ErrorKind → Nat
  | .checksum => 1
  | .illegalCommand => 2
  | .format => 3

/-- The STATUS bit an error kind is recorded in. FormatError has none (R160, R163). -/
def ErrorKind.statusBit? : ErrorKind → Option StatusBit
  | .checksum => some .chkerr
  | .illegalCommand => some .illegal
  | .format => none

/-- `record E` (R11): set the STATUS flag that `E` names. It saves no state, changes no mode and moves control nowhere
(R167). -/
def Block.record (e : ErrorKind) (b : Block) : Block :=
  match e.statusBit? with
  | some k => b.raise k
  | none => b

/-- `illegalStep` (R147): ILLEGAL is set and nothing else changes. -/
def Block.illegalStep (b : Block) : Block := b.record .illegalCommand

/-! ## The read port -/

/-- The byte of `S` at a mapped index (R31); indices above 0x1E have none. The last arm is 0x1E. -/
def Block.byteAt (b : Block) (i : Nat) : Byte :=
  if i = 0x00 then lowByte b.crcreg
  else if i = 0x01 then highByte b.crcreg
  else if i = 0x02 then lowByte b.crcout
  else if i = 0x03 then highByte b.crcout
  else if i = 0x04 then b.addr
  else if i = 0x05 then b.cmd
  else if i = 0x06 then b.sub
  else if i = 0x07 then b.flag
  else if i ≤ 0x11 then b.tx.toList.getD (i - 0x08) 0
  else if i ≤ 0x19 then b.rx.toList.getD (i - 0x12) 0
  else if i = 0x1A then b.status
  else if i = 0x1B then lowByte b.dcalc
  else if i = 0x1C then highByte b.dcalc
  else if i = 0x1D then lowByte b.drecv
  else highByte b.drecv

/-- `ReadPort(S, i)` (R142): `none` marks an unmapped index, 0x1F to 0xFF (R143). -/
def readPort (b : Block) (i : ReadIndex) : Option Byte :=
  if i.toNat ≤ 0x1E then some (b.byteAt i.toNat) else none

end Sys2Proof.Machine
end

