-- ==== Sys2Proof/Machine/Nop.lean ====
section
/-! DEFINITION. The command NOP (43_host.md R140), the only one outside the CRC, frame and verify families (R150). -/

namespace Sys2Proof.Machine

/-- Meaning of `NOP`: no state change (R140). -/
def execNop (s : State) : Host.Outcome State Fault Refusal := .next s

end Sys2Proof.Machine
end

