-- ==== Sys2Proof/Machine/Crc.lean ====
section
/-! DEFINITION. The CRC-16 generator (40_crc.md): the source's function, R81–R84, and the commands CRCINIT (R86) and
CRCBYTE (R87). -/

namespace Sys2Proof.Machine

/-! ## The CRC function -/

/-- One bit step (R81). -/
def crcBit (r : Word) (x : Bool) : Word :=
  if (r.getLsbD 0 ^^ x) = true then (r >>> 1) ^^^ Config.crcPoly else r >>> 1

/-- `n` rounds of the loop of R82: consume the data byte's least significant bit, then shift the byte right by one. -/
def crcByteLoop : Nat → Word → Byte → Word
  | 0, r, _ => r
  | n + 1, r, b => crcByteLoop n (crcBit r (b.getLsbD 0)) (b >>> 1)

/-- One byte step: eight rounds (R82). -/
def crcByte (r : Word) (b : Byte) : Word := crcByteLoop 8 r b

/-- The raw register over a byte sequence, first byte first (R83; 92_eei_decisions.md D25). -/
def crcRaw (r0 : Word) (p : List Byte) : Word := p.foldl crcByte r0

/-- The CRC of a byte sequence (R84). -/
def crc16 (p : List Byte) : Word := crcRaw Config.crcSeed p ^^^ Config.crcXorOut

/-- A word's bytes in wire order, low byte first (R42, R120). -/
def wordToBytes (w : Word) : List Byte := bytesOfWord Config.crcByteOrder w

/-! ## CRCINIT and CRCBYTE -/

/-- `CRCINIT(S)` (R86). -/
def Block.crcinit (b : Block) : Block := b.setCrcreg Config.crcSeed

/-- `CRCBYTE(S, d)` (R87). -/
def Block.crcbyte (d : Byte) (b : Block) : Block := b.setCrcreg (crcByte b.crcreg d)

/-- Meaning of `CRCINIT` (R86). -/
def execCrcinit (s : State) : Host.Outcome State Fault Refusal := .next (s.setBlock s.block.crcinit)

/-- Meaning of `CRCBYTE d` (R87). -/
def execCrcbyte (d : Byte) (s : State) : Host.Outcome State Fault Refusal := .next (s.setBlock (s.block.crcbyte d))

end Sys2Proof.Machine
end

