-- ==== Sys2Proof/Machine/Frame.lean ====
section
/-! DEFINITION. The serial frame builder (41_frame.md): the source's functions, R100–R103, and the commands FLDWR (R104)
and BUILD (R105). -/

namespace Sys2Proof.Machine

/-! ## The frame functions -/

/-- The 8-byte command frame (R100). -/
def buildCommand (a c s f : Byte) : List Byte := [a, c, s, f] ++ List.replicate Config.padLen 0x00#8

/-- `buildCommand` on integers: any input outside 0–255 is a FormatError that carries all four (R101; D14). -/
def buildCommandChecked (a c s f : Int) : Except Error (List Byte) :=
  if isByteValue a && isByteValue c && isByteValue s && isByteValue f then
    .ok (buildCommand (BitVec.ofInt 8 a) (BitVec.ofInt 8 c) (BitVec.ofInt 8 s) (BitVec.ofInt 8 f))
  else .error (.format a c s f)

/-- The 10-byte outbound wire frame: the command frame, then its CRC, low byte first (R103). -/
def wireFrame (a c s f : Byte) : List Byte :=
  buildCommand a c s f ++ wordToBytes (crc16 (buildCommand a c s f))

/-- The wire frame has `TX_FRAME_LEN` = 10 bytes (R8). -/
theorem wireFrame_length (a c s f : Byte) : (wireFrame a c s f).length = 10 := rfl

/-- The wire frame as the register TX holds it (R105). -/
def txImage (a c s f : Byte) : Vector Byte 10 := ⟨(wireFrame a c s f).toArray, wireFrame_length a c s f⟩

/-! ## FLDWR and BUILD -/

/-- `FLDWR(S, f, d)` (R104): TXRDY is cleared even when the value does not change. -/
def Block.fldwr (f : FieldReg) (d : Byte) (b : Block) : Block := (b.setField f d).lower .txrdy

/-- `BUILD(S)` (R105). CRCREG is neither read nor written (D9). -/
def Block.build (b : Block) : Block := (b.setTx (txImage b.addr b.cmd b.sub b.flag)).raise .txrdy

/-- Meaning of `FLDWR f, d` (R104). -/
def execFldwr (f : FieldReg) (d : Byte) (s : State) : Host.Outcome State Fault Refusal := .next (s.setBlock (s.block.fldwr f d))

/-- Meaning of `BUILD` (R105). -/
def execBuild (s : State) : Host.Outcome State Fault Refusal := .next (s.setBlock s.block.build)

end Sys2Proof.Machine
end

