-- ==== Sys2Proof/Machine/Verify.lean ====
section
/-! DEFINITION. The response check (42_verify.md): the source's function `verifyAndStrip`, R121–R123, and the commands
RXWR (R126) and VERIFY (R127). -/

namespace Sys2Proof.Machine

/-- Check a frame's trailing CRC and return the bytes before it (R121). A frame shorter than two bytes has no data and
is all "received", as R122 says: natural subtraction stops at zero. -/
def verifyAndStrip (frame : List Byte) : Except Error (List Byte) :=
  let data := frame.take (frame.length - 2)
  let received := frame.drop (frame.length - 2)
  let expected := wordToBytes (crc16 data)
  if expected = received then .ok data else .error (.checksum frame expected received)

/-- `RXWR(S, i, d)` (R126): VALID and CHKERR are cleared even when the value does not change. -/
def Block.rxwr (i : Fin 8) (d : Byte) (b : Block) : Block := ((b.setRx i d).lower .valid).lower .chkerr

/-- `VERIFY(S)` (R127): the diagnostics are written on every VERIFY (D10), CRCREG is neither read nor written (D9), and
a mismatch records ChecksumError (R162). -/
def Block.verify (b : Block) : Block :=
  let c := crc16 b.payload
  let checked := b.setDiagnostics c b.received
  if c = b.received then (checked.raise .valid).lower .chkerr
  else (checked.lower .valid).record .checksum

/-- Meaning of `RXWR i, d` (R126). -/
def execRxwr (i : Fin 8) (d : Byte) (s : State) : Host.Outcome State Fault Refusal := .next (s.setBlock (s.block.rxwr i d))

/-- Meaning of `VERIFY` (R127). -/
def execVerify (s : State) : Host.Outcome State Fault Refusal := .next (s.setBlock s.block.verify)

end Sys2Proof.Machine
end

