-- ==== Sys2Proof/Machine/Dispatch.lean ====
section
/-! DEFINITION. One arm per command (43_host.md R146, the legal words). -/

namespace Sys2Proof.Machine

def exec (i : Instr) (s : State) : Host.Outcome State Fault Refusal :=
  match i with
  | .nop => Sys2Proof.Machine.execNop s
  | .crcinit => Sys2Proof.Machine.execCrcinit s
  | .crcbyte d => Sys2Proof.Machine.execCrcbyte d s
  | .fldwr f d => Sys2Proof.Machine.execFldwr f d s
  | .build => Sys2Proof.Machine.execBuild s
  | .rxwr k d => Sys2Proof.Machine.execRxwr k d s
  | .verify => Sys2Proof.Machine.execVerify s

end Sys2Proof.Machine
end

