-- ==== Sys2Proof/Machine/Port.lean ====
section
/-! DEFINITION. The block's two ports and its reset input (43_host.md R141–R148, 70_reset_and_hazards.md R180, R181):
what each host event does, the spec's own step over command words (R146), and the run of a list of words (R148). -/

namespace Sys2Proof.Machine

/-! ## One host event -/

/-- A word is presented on the command port: decode it and run it; an illegal word is recorded and never executed
(R145–R147, R166). -/
def present (w : CmdWord) (s : State) : Host.Outcome State Fault Refusal :=
  match decodeWord w with
  | .ok i => exec i s
  | .error _ => .next (s.setBlock s.block.illegalStep)

/-- The host reads one index. The block does not change (R141). An unmapped index answers a free byte (R143). -/
def answerRead (i : ReadIndex) (s : State) : State :=
  match readPort s.block i with
  | some v => { s with answers := s.answers ++ [⟨i, v⟩] }
  | none =>
    { s with answers := s.answers ++ [⟨i, Config.unmappedByte s.draws i⟩], draws := s.draws + 1 }

/-- The reset signal sets the whole block (R180). The host's own record and program are not the block's (log entry 2). -/
def applyReset (s : State) : State := s.setBlock Block.reset

/-- Take one host event. A command presented while reset is asserted is discarded (R181). -/
def serve (e : HostEvent) (s : State) : Host.Outcome State Fault Refusal :=
  match e with
  | .command w => present w s
  | .read i => .next (answerRead i s)
  | .reset _ => .next (applyReset s)

/-- The host's next event, if it has one, and the state without it. A block to which nothing is presented holds its
state (R175; log entry 1). -/
def nextEvent (s : State) : Option (HostEvent × State) :=
  match s.pending with
  | [] => none
  | e :: rest => some (e, { s with pending := rest })

/-- Present one more word before everything the host has still to do. -/
def State.pushCommand (w : CmdWord) (s : State) : State := { s with pending := .command w :: s.pending }

/-! ## The spec's step and run over words -/

/-- `step(S, w)` of R146, on the block alone and total over all 65 536 words. -/
def commandStep (b : Block) (w : CmdWord) : Block :=
  if legal w then
    match (opOf w).toNat with
    | 0x0 => b
    | 0x1 => b.crcinit
    | 0x2 => b.crcbyte (dataOf w)
    | 0x3 => b.fldwr (fieldOf w) (dataOf w)
    | 0x4 => b.build
    | 0x5 => b.rxwr (rxIndexOf w) (dataOf w)
    | _ => b.verify
  else b.illegalStep

/-- `run(S0, [w1, ..., wn])` of R148. -/
def runWords (b : Block) (ws : List CmdWord) : Block := ws.foldl commandStep b

end Sys2Proof.Machine
end

