-- ==== Sys2Proof/Machine/Step.lean ====
section
/-! DEFINITION. One step of the machine: the host's next event, taken whole before the one after it (43_host.md R145,
20_memory.md R51). The block fetches nothing (10_state.md R21): a command is what the host presents. -/

namespace Sys2Proof.Machine

/-- One step. With no event pending the state is held (R175; log entry 1). -/
def step (s : State) : Host.Outcome State Fault Refusal :=
  match nextEvent s with
  | none => .next s
  | some (e, s') => serve e s'

/-- The state in which the host presents the table's word next, before all it has still to do (log entry 1). -/
def State.withFetchWord (s : State) (nbits w : Nat) : State := s.pushCommand (tableWord nbits w)

end Sys2Proof.Machine
end

