-- ==== Sys2Proof/Machine/Asm.lean ====
section
/-! DEFINITION. The assembler of 30_encoding.md: commands and pseudo-instructions with integer operands (R70, R71), and
the text they are written in (R70). A host-side out-of-range value is stopped here, before the command port (R102). -/

namespace Sys2Proof.Machine

/-! ## Pseudo-instructions on bytes (R71) -/

/-- `CRC b0, ..., bn-1` (R71). -/
def crcWords (p : List Byte) : List CmdWord := encode .crcinit :: p.map (fun d => encode (.crcbyte d))

/-- `FRAME a, c, s, f` (R71). -/
def frameWords (a c s f : Byte) : List CmdWord :=
  [encode (.fldwr .addr a), encode (.fldwr .cmd c), encode (.fldwr .sub s), encode (.fldwr .flag f), encode .build]

/-- `RXLOAD b0, ..., b7` (R71). -/
def rxloadWords (v : Vector Byte 8) : List CmdWord :=
  [encode (.rxwr 0 v[0]), encode (.rxwr 1 v[1]), encode (.rxwr 2 v[2]), encode (.rxwr 3 v[3]),
   encode (.rxwr 4 v[4]), encode (.rxwr 5 v[5]), encode (.rxwr 6 v[6]), encode (.rxwr 7 v[7])]

/-- `CHECK b0, ..., b7` (R71). -/
def checkWords (v : Vector Byte 8) : List CmdWord := rxloadWords v ++ [encode .verify]

/-! ## Operands and statements -/

/-- Why a source line is refused (R70). -/
inductive AsmError where
  /-- `d` outside 0–255. -/
  | byteRange (v : Int)
  /-- `f` outside 0–3. -/
  | fieldRange (v : Int)
  /-- `i` outside 0–7. -/
  | rxRange (v : Int)
  /-- The range check of `buildCommand`, made before words are built from integers (R102). -/
  | rejected (e : Error)
  /-- The mnemonic is none of the seven forms and none of the pseudo-instructions. -/
  | unknownMnemonic (name : List Char)
  /-- The operands are not the form's: their number, a missing comma, or no number where one must stand. -/
  | operands
  /-- A character no rule of the syntax uses. -/
  | character (c : Char)
deriving DecidableEq, Repr

/-- An integer as the DATA byte (R70). -/
def byteOperand (v : Int) : Except AsmError Byte :=
  if isByteValue v then .ok (BitVec.ofInt 8 v) else .error (.byteRange v)

/-- An integer as a field selector (R63, R70). -/
def fieldOperand (v : Int) : Except AsmError FieldReg :=
  if isFieldIndex v then .ok (FieldReg.ofBits (BitVec.ofInt 2 v)) else .error (.fieldRange v)

/-- An integer as an RX index (R63, R70). -/
def rxOperand (v : Int) : Except AsmError (Fin 8) :=
  if isRxIndex v then .ok (BitVec.ofInt 3 v).toFin else .error (.rxRange v)

/-- Check a command's operands and give the command (R70). -/
def AsmCmd.toInstr : AsmCmd → Except AsmError Instr
  | .nop => .ok .nop
  | .crcinit => .ok .crcinit
  | .crcbyte d => (byteOperand d).map .crcbyte
  | .fldwr f d => (fieldOperand f).bind (fun k => (byteOperand d).map (.fldwr k))
  | .build => .ok .build
  | .rxwr i d => (rxOperand i).bind (fun k => (byteOperand d).map (.rxwr k))
  | .verify => .ok .verify

/-- The word of a command with integer operands (R70). -/
def AsmCmd.assemble (c : AsmCmd) : Except AsmError CmdWord := (AsmCmd.toInstr c).map encode

/-- Every operand of a list as a byte; the first one out of range is the error. -/
def byteOperands : List Int → Except AsmError (List Byte)
  | [] => .ok []
  | v :: vs => (byteOperand v).bind (fun d => (byteOperands vs).map (d :: ·))

/-- Exactly eight byte operands. -/
def eightBytes (vs : List Int) : Except AsmError (Vector Byte 8) :=
  (byteOperands vs).bind fun p =>
    match p with
    | [b0, b1, b2, b3, b4, b5, b6, b7] => .ok #v[b0, b1, b2, b3, b4, b5, b6, b7]
    | _ => .error .operands

/-- One source statement: a command or a pseudo-instruction, with integer operands (R70, R71). -/
inductive AsmStmt where
  | cmd (c : AsmCmd)
  | crc (bytes : List Int)
  | frame (a c s f : Int)
  | rxload (bytes : List Int)
  | check (bytes : List Int)
deriving DecidableEq, Repr

/-- The words of a statement (R70, R71). FRAME's inputs go through `buildCommand`'s own range check (R102). -/
def AsmStmt.words : AsmStmt → Except AsmError (List CmdWord)
  | .cmd c => (AsmCmd.assemble c).map (fun w => [w])
  | .crc vs => (byteOperands vs).map crcWords
  | .frame a c s f =>
    match buildCommandChecked a c s f with
    | .ok _ =>
      .ok (frameWords (BitVec.ofInt 8 a) (BitVec.ofInt 8 c) (BitVec.ofInt 8 s) (BitVec.ofInt 8 f))
    | .error e => .error (.rejected e)
  | .rxload vs => (eightBytes vs).map rxloadWords
  | .check vs => (eightBytes vs).map checkWords

/-! ## The source text (R70) -/

/-- A token of a source line. -/
inductive Token where
  /-- A mnemonic, a field name or a number, as written. -/
  | word (name : List Char)
  /-- A quoted character. -/
  | quoted (c : Char)
  | comma
deriving DecidableEq, Repr

/-- Letters, digits and the underscore make words. -/
def isWordChar (c : Char) : Bool := c.isAlphanum || c == '_'

/-- Space, tab and carriage return separate tokens. -/
def isBlankChar (c : Char) : Bool := c == ' ' || c == '\t' || c == '\r'

/-- The word gathered so far (in reverse), as a token in front of the rest. -/
def flushWord (acc : List Char) (rest : List Token) : List Token :=
  match acc with
  | [] => rest
  | _ => .word acc.reverse :: rest

/-- Split a line into tokens. `;` starts a comment; a `;` between quotes is a character (log entry 6). -/
def tokenize : List Char → List Char → Except AsmError (List Token)
  | [], acc => .ok (flushWord acc [])
  | '\'' :: c :: '\'' :: rest, acc => (tokenize rest []).map (fun ts => flushWord acc (.quoted c :: ts))
  | c :: rest, acc =>
    if c = ';' then .ok (flushWord acc [])
    else if c = ',' then (tokenize rest []).map (fun ts => flushWord acc (.comma :: ts))
    else if isBlankChar c then (tokenize rest []).map (flushWord acc)
    else if isWordChar c then tokenize rest (c :: acc)
    else .error (.character c)

/-- The value of a digit, if it is one in the base (10 or 16). -/
def digitValue (base : Nat) (c : Char) : Option Nat :=
  let n := c.toNat
  let v :=
    if 48 ≤ n ∧ n ≤ 57 then n - 48
    else if 65 ≤ n ∧ n ≤ 70 then n - 55
    else if 97 ≤ n ∧ n ≤ 102 then n - 87
    else base
  if v < base then some v else none

/-- The value of a digit string that follows `acc`. -/
def digitsValue (base : Nat) : Nat → List Char → Option Nat
  | acc, [] => some acc
  | acc, c :: cs => (digitValue base c).bind (fun v => digitsValue base (acc * base + v) cs)

/-- A number: decimal, or hexadecimal after `0x` (R70). -/
def numberValue : List Char → Option Nat
  | [] => none
  | '0' :: 'x' :: [] => none
  | '0' :: 'x' :: ds => digitsValue 16 0 ds
  | ds => digitsValue 10 0 ds

/-- A numeric operand; a quoted character stands for its ASCII code (R70). -/
def Token.number : Token → Option Int
  | .word name => (numberValue name).map Int.ofNat
  | .quoted c => if c.toNat < 128 then some (Int.ofNat c.toNat) else none
  | .comma => none

/-- The index a field name stands for (R70). -/
def fieldName (name : List Char) : Option Int :=
  if name = ['A', 'D', 'D', 'R'] then some 0
  else if name = ['C', 'M', 'D'] then some 1
  else if name = ['S', 'U', 'B'] then some 2
  else if name = ['F', 'L', 'A', 'G'] then some 3
  else none

/-- FLDWR's first operand: a field name or a number (R70). -/
def Token.fieldNumber (t : Token) : Option Int :=
  match t with
  | .word name => (fieldName name).orElse (fun _ => t.number)
  | _ => t.number

/-- Operands separated by commas (R70). -/
def splitOperands : List Token → Option (List Token)
  | [] => some []
  | [t] => if t = .comma then none else some [t]
  | t :: .comma :: rest =>
    if t = .comma ∨ rest = [] then none else (splitOperands rest).map (t :: ·)
  | _ => none

/-- Every operand as a number. -/
def numbers : List Token → Option (List Int)
  | [] => some []
  | t :: ts => t.number.bind (fun v => (numbers ts).map (v :: ·))

/-- Read the operands of one mnemonic (R70, R71). -/
def parseStmt (name : List Char) (ops : List Token) : Except AsmError AsmStmt :=
  let get (o : Option AsmStmt) : Except AsmError AsmStmt :=
    match o with
    | some a => .ok a
    | none => .error .operands
  if name = "NOP".toList then get (if ops = [] then some (.cmd .nop) else none)
  else if name = "CRCINIT".toList then get (if ops = [] then some (.cmd .crcinit) else none)
  else if name = "BUILD".toList then get (if ops = [] then some (.cmd .build) else none)
  else if name = "VERIFY".toList then get (if ops = [] then some (.cmd .verify) else none)
  else if name = "CRCBYTE".toList then
    get (match ops with | [d] => d.number.map (fun v => .cmd (.crcbyte v)) | _ => none)
  else if name = "FLDWR".toList then
    get (match ops with
      | [f, d] => f.fieldNumber.bind (fun k => d.number.map (fun v => .cmd (.fldwr k v)))
      | _ => none)
  else if name = "RXWR".toList then
    get (match ops with
      | [i, d] => i.number.bind (fun k => d.number.map (fun v => .cmd (.rxwr k v)))
      | _ => none)
  else if name = "CRC".toList then get ((numbers ops).map .crc)
  else if name = "FRAME".toList then
    get ((numbers ops).bind (fun vs => match vs with | [a, c, s, f] => some (.frame a c s f) | _ => none))
  else if name = "RXLOAD".toList then get ((numbers ops).map .rxload)
  else if name = "CHECK".toList then get ((numbers ops).map .check)
  else .error (.unknownMnemonic name)

/-- The words of one source line; a blank or comment line has none (R70). -/
def assembleLine (line : List Char) : Except AsmError (List CmdWord) :=
  (tokenize line []).bind fun ts =>
    match ts with
    | [] => .ok []
    | .word name :: rest =>
      match splitOperands rest with
      | some ops => (parseStmt name ops).bind AsmStmt.words
      | none => .error .operands
    | _ => .error .operands

/-- Cut a text at its line ends. -/
def splitLines : List Char → List Char → List (List Char)
  | [], acc => [acc.reverse]
  | c :: cs, acc => if c = '\n' then acc.reverse :: splitLines cs [] else splitLines cs (c :: acc)

/-- The words of a list of lines; the first line refused is the error. -/
def assembleLines : List (List Char) → Except AsmError (List CmdWord)
  | [] => .ok []
  | l :: ls => (assembleLine l).bind (fun ws => (assembleLines ls).map (ws ++ ·))

/-- A source text as the host's command words, one command per line (R70). -/
def assembleText (text : List Char) : Except AsmError (List CmdWord) := assembleLines (splitLines text [])

end Sys2Proof.Machine
end

