-- ==== Sys2Proof/Safety.lean ====
section
/-! DEFINITION. What claims are stated in terms of: the invariant of the block (10_state.md R28, R29; 41_frame.md R106,
R108), and the run whose words were all legal (43_host.md R148: "A CLAIM ABOUT THE END STATE SHOULD TAKE
`STATUS.ILLEGAL = 0` AS A PREMISE WHEN IT MEANS A PROGRAM OF LEGAL COMMANDS"). -/

namespace Sys2Proof.Machine

/-- What holds of the block at reset and after every command. -/
structure Block.Inv (b : Block) : Prop where
  /-- STATUS[7:4] reads 0 (R28, R30). -/
  reservedZero : b.status.extractLsb' 4 4 = 0#4
  /-- VALID and CHKERR are never both 1 (R28). -/
  notBoth : ¬(b.valid = true ∧ b.chkerr = true)
  /-- While TXRDY = 1, TX is the wire frame of the current fields (R106). -/
  txCurrent : b.txrdy = true → b.tx.toList = wireFrame b.addr b.cmd b.sub b.flag
  /-- TX is its reset value or the wire frame of some fields: only BUILD writes it (R26). -/
  txBuilt : b.tx = Vector.replicate 10 0x00#8 ∨ ∃ a c s f, b.tx.toList = wireFrame a c s f
  /-- The pad bytes are zero (R108). -/
  padZero : b.tx[4] = 0x00#8 ∧ b.tx[5] = 0x00#8 ∧ b.tx[6] = 0x00#8 ∧ b.tx[7] = 0x00#8
  /-- While a verdict stands, the diagnostics are those of the RX that is there (R28, R29). -/
  verdictCurrent : b.valid = true ∨ b.chkerr = true → b.dcalc = crc16 b.payload ∧ b.drecv = b.received
  /-- VALID says the CRCs agree (R127). -/
  validAgrees : b.valid = true → b.dcalc = b.drecv
  /-- CHKERR says they differ (R127). -/
  chkerrDiffers : b.chkerr = true → b.dcalc ≠ b.drecv

/-- The invariant of the whole machine is the block's. -/
def State.Inv (s : State) : Prop := s.block.Inv

/-- Every word presented since reset was legal, read from the sticky bit (R28, R148). -/
def Block.LegalSoFar (b : Block) : Prop := b.illegal = false

/-- The payload may be handed to a decoder: only while VALID = 1 (R128, R184). -/
def Block.PayloadVerified (b : Block) : Prop := b.valid = true

/-- TX may be sent: only while TXRDY = 1 (R184). -/
def Block.TxSendable (b : Block) : Prop := b.txrdy = true

/-! ## What the host does next -/

/-- The legal command the host presents next, if that is what it does next. -/
def State.nextInstr (s : State) : Option Instr :=
  match s.pending with
  | .command w :: _ => (decodeWord w).toOption
  | _ => none

/-- The host presents an illegal word next (R66). -/
def State.nextIsIllegal (s : State) : Bool :=
  match s.pending with
  | .command w :: _ => !legal w
  | _ => false

/-- The host asserts reset next (R180). -/
def State.nextIsReset (s : State) : Bool :=
  match s.pending with
  | .reset _ :: _ => true
  | _ => false

/-- The bytes a list of words feeds to the CRC: the operands of its CRCBYTE commands, in order (R88). -/
def bytesFed (ws : List CmdWord) : List Byte :=
  ws.filterMap fun w =>
    match decodeWord w with
    | .ok (.crcbyte d) => some d
    | _ => none

/-! ## Errors on the line -/

/-- Two frames of one length, XORed byte by byte: a frame and an error pattern (R131, R132). -/
def xorBytes (p e : List Byte) : List Byte := List.zipWith (· ^^^ ·) p e

/-- The number of bits set in an error pattern. -/
def bitWeight (e : List Byte) : Nat := (e.map fun d => ((List.range 8).countP fun k => d.getLsbD k)).sum

/-- Flip bit `j` of a frame: bit `j mod 8` of byte `j div 8` (95_test_vectors.md V25). -/
def flipBit (p : List Byte) (j : Nat) : List Byte := p.modify (j / 8) (· ^^^ (1#8 <<< (j % 8)))

end Sys2Proof.Machine
end

