-- ==== Sys2Proof/Certificates/Slice0/Obligations.lean ====
section
/-! DEFINITION. The statements for the provers. Each docstring names the rule of spec/ it formalises. A command is
presented by putting it in front of what the host has still to do (`pending`), and the step that takes it leaves the rest.
The block has no memory (20_memory.md R40): an equation that gives the whole next state is its own frame. -/

open Sys2Proof Sys2Proof.Machine

/-! ## Reset -/

/-- R180: what reset loads, from any state and whether or not a command is being presented; and only reset clears
ILLEGAL. -/
def Obligations.ResetLoadsEveryRegister : Prop :=
  (State.reset.block.crcreg = 0xFFFF#16 ∧ State.reset.block.addr = 0x02#8 ∧ State.reset.block.cmd = 0x00#8 ∧
    State.reset.block.sub = 0x00#8 ∧ State.reset.block.flag = 0x00#8 ∧
    State.reset.block.tx = #v[0, 0, 0, 0, 0, 0, 0, 0, 0, 0] ∧ State.reset.block.rx = #v[0, 0, 0, 0, 0, 0, 0, 0] ∧
    State.reset.block.status = 0x00#8 ∧ State.reset.block.dcalc = 0x0000#16 ∧ State.reset.block.drecv = 0x0000#16) ∧
  (∀ (s : State) (presented : Option CmdWord),
    ∃ t, step { s with pending := .reset presented :: s.pending } = .next t ∧ t.block = State.reset.block) ∧
  (∀ s t : State, s.block.illegal = true → step s = .next t → t.block.illegal = false → s.nextIsReset = true)

/-- R183 (the spec's inference): CRCOUT after reset, a CRC without a CRCINIT, BUILD and VERIFY right after reset. -/
def Obligations.ResetConsequences : Prop :=
  (readPort Block.reset 0x02 = some 0x00#8 ∧ readPort Block.reset 0x03 = some 0x00#8) ∧
  (∀ p : List Byte, (runWords Block.reset (p.map fun d => encode (.crcbyte d))).crcout = crc16 p) ∧
  (runWords Block.reset [0x4000#16]).tx.toList = [0x02, 0, 0, 0, 0, 0, 0, 0, 0x1C, 0x88] ∧
  ((runWords Block.reset [0x6000#16]).chkerr = true ∧ (runWords Block.reset [0x6000#16]).valid = false)

/-! ## Encoding -/

/-- Words of every family, written out from the patterns of R62, decode to their commands. -/
def Obligations.WrittenWordsDecode : Prop :=
  decodeWord 0b0000000000000000#16 = .ok .nop ∧
  decodeWord 0b0001000000000000#16 = .ok .crcinit ∧
  decodeWord 0b0010000011111111#16 = .ok (.crcbyte 0xFF) ∧
  decodeWord 0b0011001000000001#16 = .ok (.fldwr .sub 0x01) ∧
  decodeWord 0b0100000000000000#16 = .ok .build ∧
  decodeWord 0b0101011110100000#16 = .ok (.rxwr 7 0xA0) ∧
  decodeWord 0b0110000000000000#16 = .ok .verify

/-- Decoding an encoded command gives it back, with every operand at every value (R61, R62, R70). -/
def Obligations.DecodeOfEncode : Prop :=
  ∀ i : Instr, decodeWord (encode i) = .ok i

/-- A word that decodes is the encoding of what it decodes to: each legal word has one meaning (R62, R64). -/
def Obligations.EncodeOfDecode : Prop :=
  ∀ (w : CmdWord) (i : Instr), decodeWord w = .ok i → encode i = w

/-- R64: legality by the rows of R62, at most one row matches, the written-out form; and the decoder accepts exactly the
legal words. -/
def Obligations.LegalWords : Prop :=
  (∀ w : CmdWord, legal w = true ↔
    w &&& 0xFFFF#16 = 0x0000#16 ∨ w &&& 0xFFFF#16 = 0x1000#16 ∨ w &&& 0xFF00#16 = 0x2000#16 ∨
    w &&& 0xFC00#16 = 0x3000#16 ∨ w &&& 0xFFFF#16 = 0x4000#16 ∨ w &&& 0xF800#16 = 0x5000#16 ∨
    w &&& 0xFFFF#16 = 0x6000#16) ∧
  (∀ (w : CmdWord) (r r' : OpRow),
    r ∈ opRows → r' ∈ opRows → w &&& r.mask = r.pattern → w &&& r'.mask = r'.pattern → r = r') ∧
  (∀ w : CmdWord, legal w = true ↔
    w = 0x0000#16 ∨ w = 0x1000#16 ∨ w.extractLsb' 8 8 = 0x20#8 ∨
    (w.extractLsb' 12 4 = 0x3#4 ∧ w.extractLsb' 10 2 = 0#2) ∨ w = 0x4000#16 ∨
    (w.extractLsb' 12 4 = 0x5#4 ∧ w.extractLsb' 11 1 = 0#1) ∨ w = 0x6000#16) ∧
  (∀ w : CmdWord, (∃ i, decodeWord w = .ok i) ↔ legal w = true)

/-- R65, R66: which words are illegal, and that an illegal word is never executed as another command: it only sets
ILLEGAL. -/
def Obligations.IllegalWords : Prop :=
  (∀ w : CmdWord, 0x7 ≤ (w.extractLsb' 12 4).toNat → legal w = false) ∧
  (∀ w : CmdWord, (w.extractLsb' 12 4).toNat < 0x7 →
    (legal w = false ↔
      ((w.extractLsb' 12 4 = 0x0#4 ∨ w.extractLsb' 12 4 = 0x1#4 ∨ w.extractLsb' 12 4 = 0x4#4 ∨
          w.extractLsb' 12 4 = 0x6#4) ∧ w.extractLsb' 0 12 ≠ 0#12) ∨
      (w.extractLsb' 12 4 = 0x2#4 ∧ w.extractLsb' 8 4 ≠ 0#4) ∨
      (w.extractLsb' 12 4 = 0x3#4 ∧ 4 ≤ (w.extractLsb' 8 4).toNat) ∨
      (w.extractLsb' 12 4 = 0x5#4 ∧ 8 ≤ (w.extractLsb' 8 4).toNat))) ∧
  (∀ (s : State) (w : CmdWord), legal w = false →
    step { s with pending := .command w :: s.pending } =
      .next { s with block := { s.block with status := s.block.status ||| 0x04#8 } })

/-- R69 (the spec's inference): how many words each row and the whole set have. -/
def Obligations.EncodingCensus : Prop :=
  (opRows.map fun r => (r.mnemonic, ((Finset.univ : Finset CmdWord).filter fun w => r.selects w = true).card)) =
    [("NOP", 1), ("CRCINIT", 1), ("CRCBYTE", 256), ("FLDWR", 1024), ("BUILD", 1), ("RXWR", 2048), ("VERIFY", 1)] ∧
  ((Finset.univ : Finset CmdWord).filter fun w => legal w = true).card = 3332 ∧
  ((Finset.univ : Finset CmdWord).filter fun w => legal w = false).card = 62204

/-- R60's open parameter `CMD_PORT_BYTE_ORDER` (log entry 5): in either order, the two bytes of a word decode as the
word does and leave the rest of the stream; a stream that ends inside a word is no command (R68). -/
def Obligations.ByteStreamDecode : Prop :=
  (∀ (o : ByteOrder) (w : CmdWord) (rest : List Byte),
    decodeBytes o (bytesOfWord o w ++ rest) = (decodeWord w).map (fun i => (i, rest))) ∧
  (∀ (o : ByteOrder) (short : List Byte), short.length < 2 → decodeBytes o short = .error (.truncated short.length))

/-! ## The step -/

/-- A presented word that decodes runs as the command it decodes to; the rest of the host's program is untouched
(R145, R146). -/
def Obligations.StepRunsDecodedCommand : Prop :=
  ∀ (s : State) (w : CmdWord) (i : Instr), decodeWord w = .ok i →
    step { s with pending := .command w :: s.pending } = exec i s

/-- R146: over all 65 536 words, one step is the spec's own step function, and it always answers a next state. That the
steps R146 does not speak of (a read, a reset, a step with nothing pending) answer a next state too is the model's
choice: log entry 1 makes an idle step a step, log entry 10 says why no fault exists. -/
def Obligations.StepIsTheSpecsStep : Prop :=
  (∀ (s : State) (w : CmdWord),
    step { s with pending := .command w :: s.pending } = .next { s with block := commandStep s.block w }) ∧
  (∀ s : State, ∃ t, step s = .next t)

/-- Every command, on every operand and in every state, completes: it answers a next state, touches nothing but the
block, and leaves ILLEGAL as it was (R146, R166, R170). -/
def Obligations.EveryCommandCompletes : Prop :=
  ∀ (i : Instr) (s : State),
    ∃ t, exec i s = .next t ∧ t.pending = s.pending ∧ t.answers = s.answers ∧ t.draws = s.draws ∧
      t.block.illegal = s.block.illegal

/-- R147: an illegal word sets ILLEGAL and changes nothing else; no command clears it; later commands execute as they
would have without it. -/
def Obligations.IllegalCommandIsRecorded : Prop :=
  (∀ (s : State) (w : CmdWord), legal w = false →
    ∃ t, step { s with pending := .command w :: s.pending } = .next t ∧ t.block.illegal = true ∧
      t = { s with block := { s.block with status := t.block.status } } ∧
      t.block.valid = s.block.valid ∧ t.block.chkerr = s.block.chkerr ∧ t.block.txrdy = s.block.txrdy ∧
      t.block.status.extractLsb' 4 4 = s.block.status.extractLsb' 4 4) ∧
  (∀ (s : State) (w : CmdWord), s.block.illegal = true →
    ∃ t, step { s with pending := .command w :: s.pending } = .next t ∧ t.block.illegal = true) ∧
  (∀ (b : Block) (w : CmdWord),
    commandStep { b with status := b.status ||| 0x04#8 } w =
      { commandStep b w with status := (commandStep b w).status ||| 0x04#8 })

/-- R148, R51: presenting a list of words one after the other takes the block through the spec's run. -/
def Obligations.RunOfPresentedWords : Prop :=
  ∀ (s : State) (ws : List CmdWord),
    Host.Core.run core ws.length { s with pending := ws.map .command ++ s.pending } =
      .next { s with block := runWords s.block ws }

/-- R51: a read after a list of commands answers from the state after every one of them and none after. -/
def Obligations.ReadSeesEarlierCommands : Prop :=
  ∀ (s : State) (ws : List CmdWord) (i : ReadIndex) (v : Byte), readPort (runWords s.block ws) i = some v →
    Host.Core.run core (ws.length + 1) { s with pending := ws.map .command ++ .read i :: s.pending } =
      .next { s with block := runWords s.block ws, answers := s.answers ++ [⟨i, v⟩] }

/-- R175, and the model's choice of log entry 1: while the host does nothing, any number of steps hold the state. -/
def Obligations.StateIsHeldWhileIdle : Prop :=
  ∀ (s : State) (n : Nat), s.pending = [] → Host.Core.run core n s = .next s

/-- R185: no hazards. BUILD uses the field just written (in its place and in the CRC), VERIFY the byte just written
(whichever of the eight: both diagnostics and the verdict are those of the new RX), a read sees the command just
completed, CRCBYTE after CRCINIT starts from the seed. -/
def Obligations.NoHazards : Prop :=
  (∀ (b : Block) (f : FieldReg) (d : Byte),
    let after := runWords b [encode (.fldwr f d), encode .build]
    after.tx.toList[f.index]? = some d ∧ (∀ g : FieldReg, after.field g = if g = f then d else b.field g) ∧
    after.tx.toList = wireFrame after.addr after.cmd after.sub after.flag) ∧
  (∀ (b : Block) (k : Fin 8) (d : Byte),
    let rx := b.rx.set k.val d k.isLt
    let after := runWords b [encode (.rxwr k d), encode .verify]
    after.rx = rx ∧ after.dcalc = crc16 (rx.toList.take 6) ∧
    after.drecv = (rx[7].setWidth 16 <<< 8) ||| rx[6].setWidth 16 ∧
    (after.valid = true ↔ after.dcalc = after.drecv) ∧ (after.chkerr = true ↔ after.dcalc ≠ after.drecv)) ∧
  (∀ (s : State) (w : CmdWord) (i : ReadIndex) (v : Byte), readPort (commandStep s.block w) i = some v →
    Host.Core.run core 2 { s with pending := .command w :: .read i :: s.pending } =
      .next { s with block := commandStep s.block w, answers := s.answers ++ [⟨i, v⟩] }) ∧
  (∀ (b : Block) (d : Byte), (runWords b [encode .crcinit, encode (.crcbyte d)]).crcreg = crcByte 0xFFFF#16 d)

/-- R186 (the spec's inference): TX may not be sent between a FLDWR and the next BUILD; the payload is not verified
between an RXWR and the next VERIFY; two reads with no command between them see one state; after an illegal word no run
of words is legal so far. -/
def Obligations.StaleDataIsShown : Prop :=
  (∀ (b : Block) (f : FieldReg) (d : Byte) (ws : List CmdWord), (∀ w ∈ ws, decodeWord w ≠ .ok .build) →
    ¬(runWords b (encode (.fldwr f d) :: ws)).TxSendable) ∧
  (∀ (b : Block) (k : Fin 8) (d : Byte) (ws : List CmdWord), (∀ w ∈ ws, decodeWord w ≠ .ok .verify) →
    ¬(runWords b (encode (.rxwr k d) :: ws)).PayloadVerified) ∧
  (∀ (s : State) (i j : ReadIndex) (x y : Byte), readPort s.block i = some x → readPort s.block j = some y →
    Host.Core.run core 2 { s with pending := .read i :: .read j :: s.pending } =
      .next { s with answers := s.answers ++ [⟨i, x⟩, ⟨j, y⟩] }) ∧
  (∀ (b : Block) (w : CmdWord) (ws : List CmdWord), legal w = false → ¬(runWords b (w :: ws)).LegalSoFar)

/-! ## NOP -/

/-- R140: NOP changes nothing, and every other word with OP = 0 is illegal and sets ILLEGAL. -/
def Obligations.NopChangesNothing : Prop :=
  (∀ s : State, exec .nop s = .next s ∧ step { s with pending := .command 0x0000#16 :: s.pending } = .next s) ∧
  (∀ (s : State) (w : CmdWord), w.extractLsb' 12 4 = 0x0#4 → w ≠ 0x0000#16 →
    legal w = false ∧
    step { s with pending := .command w :: s.pending } =
      .next { s with block := { s.block with status := s.block.status ||| 0x04#8 } })

/-! ## The CRC generator -/

/-- R86: CRCINIT loads the seed and changes nothing else. -/
def Obligations.CrcinitLoadsSeed : Prop :=
  (∀ s : State,
    exec .crcinit s = .next { s with block := { s.block with crcreg := 0xFFFF#16 } } ∧
    step { s with pending := .command 0x1000#16 :: s.pending } =
      .next { s with block := { s.block with crcreg := 0xFFFF#16 } }) ∧
  (∀ w : CmdWord, w.extractLsb' 12 4 = 0x1#4 → w ≠ 0x1000#16 → legal w = false) ∧
  exec .crcinit State.reset = .next State.reset ∧
  (∀ b : Block, ({ b with crcreg := 0xFFFF#16 } : Block).crcout = 0x0000#16) ∧ crc16 [] = 0x0000#16

/-- R87: CRCBYTE advances CRCREG by one byte step and changes nothing else; the rule's corner cases. The two fixed
points of the step at byte 0 are the spec's inference from R82 (R87 marks them derived) and the model's choice of log
entry 7 against the rule's other sentence on byte 0. -/
def Obligations.CrcbyteAdvances : Prop :=
  (∀ (s : State) (d : Byte),
    exec (.crcbyte d) s = .next { s with block := { s.block with crcreg := crcByte s.block.crcreg d } } ∧
    step { s with pending := .command (0x2000#16 ||| d.setWidth 16) :: s.pending } =
      .next { s with block := { s.block with crcreg := crcByte s.block.crcreg d } }) ∧
  (∀ w : CmdWord, w.extractLsb' 12 4 = 0x2#4 → w.extractLsb' 8 4 ≠ 0#4 → legal w = false) ∧
  (∀ r : Word, crcByte r 0x00#8 = r ↔ r = 0x0000#16 ∨ r = 0xF80F#16) ∧
  crcByte 0xFFFF#16 0x00#8 = 0x0F87#16 ∧ crcByte 0xFFFF#16 0xFF#8 = 0x00FF#16 ∧
  crcByte 0xFFFF#16 0x02#8 = 0x2C95#16 ∧
  (∀ b : Block, b.crcreg = 0x2C95#16 → b.crcout = 0xD36A#16)

/-- R81, R82: the bit step, and the byte step as eight of them, least significant bit of the byte first. -/
def Obligations.ByteStepIsEightBitSteps : Prop :=
  (∀ (r : Word) (x : Bool),
    crcBit r x = if (r.getLsbD 0 != x) = true then (r >>> 1) ^^^ 0x8408#16 else r >>> 1) ∧
  (∀ (r : Word) (b : Byte),
    crcByte r b =
      crcBit (crcBit (crcBit (crcBit (crcBit (crcBit (crcBit (crcBit r (b.getLsbD 0)) (b.getLsbD 1)) (b.getLsbD 2))
        (b.getLsbD 3)) (b.getLsbD 4)) (b.getLsbD 5)) (b.getLsbD 6)) (b.getLsbD 7))

/-- R91 (the spec's inference): XOR the byte in first, then eight shifts. -/
def Obligations.EquivalentByteStep : Prop :=
  ∀ (r : Word) (b : Byte),
    crcByte r b =
      (List.range 8).foldl (fun (t : Word) (_ : Nat) => if t.getLsbD 0 = true then (t >>> 1) ^^^ 0x8408#16 else t >>> 1)
        (r ^^^ b.setWidth 16)

/-- R90 (the spec's inference): the byte step is linear over GF(2), and for each byte a bijection on the register. -/
def Obligations.ByteStepLinear : Prop :=
  (∀ (r1 r2 : Word) (x1 x2 : Bool), crcBit (r1 ^^^ r2) (x1 != x2) = crcBit r1 x1 ^^^ crcBit r2 x2) ∧
  (∀ (r1 r2 : Word) (b1 b2 : Byte), crcByte (r1 ^^^ r2) (b1 ^^^ b2) = crcByte r1 b1 ^^^ crcByte r2 b2) ∧
  (∀ (r : Word) (b : Byte), crcByte r b = crcByte r 0x00#8 ^^^ crcByte 0x0000#16 b) ∧
  (∀ b : Byte, Function.Bijective fun r : Word => crcByte r b)

/-- R131 (1), R30 (the spec's inference): from each register value, two bytes lead to each value exactly once; so CRCREG
reaches every value from reset. -/
def Obligations.TwoBytesReachEveryRegister : Prop :=
  (∀ r : Word, Function.Bijective fun p : Byte × Byte => crcRaw r [p.1, p.2]) ∧
  (∀ v : Word, ∃ x y : Byte,
    (runWords Block.reset [encode (.crcbyte x), encode (.crcbyte y)]).crcreg = v)

/-- R88 (the spec's inference): after CRCINIT, whatever else is presented between the bytes (illegal words too), CRCREG
and the two CRCOUT bytes are those of the bytes fed. -/
def Obligations.StreamedCrc : Prop :=
  ∀ (b : Block) (ws : List CmdWord), (∀ w ∈ ws, decodeWord w ≠ .ok .crcinit) →
    let after := runWords b (0x1000#16 :: ws)
    after.crcreg = crcRaw 0xFFFF#16 (bytesFed ws) ∧
    ∃ lo hi, readPort after 0x02 = some lo ∧ readPort after 0x03 = some hi ∧
      [lo, hi] = wordToBytes (crc16 (bytesFed ws))

/-- R93 (the spec's inference): a message followed by its CRC leaves the residue, in the function and on the block. -/
def Obligations.ResidueOfCheckedMessage : Prop :=
  ∀ p : List Byte,
    crcRaw 0xFFFF#16 (p ++ wordToBytes (crc16 p)) = 0xF0B8#16 ∧
    crc16 (p ++ wordToBytes (crc16 p)) = 0x0F47#16 ∧
    ∀ b : Block, (runWords b (crcWords (p ++ wordToBytes (crc16 p)))).crcreg = 0xF0B8#16

/-! ## The frame builder -/

/-- R100, R101, R103: the layout, the range check on integers, and the wire frame, low CRC byte first. -/
def Obligations.CommandFrameLayout : Prop :=
  (∀ a c s f : Byte,
    buildCommand a c s f = [a, c, s, f, 0x00, 0x00, 0x00, 0x00] ∧
    buildCommandChecked a.toNat c.toNat s.toNat f.toNat = .ok [a, c, s, f, 0x00, 0x00, 0x00, 0x00] ∧
    wireFrame a c s f =
      [a, c, s, f, 0x00, 0x00, 0x00, 0x00,
        (crc16 [a, c, s, f, 0x00, 0x00, 0x00, 0x00]).extractLsb' 0 8,
        (crc16 [a, c, s, f, 0x00, 0x00, 0x00, 0x00]).extractLsb' 8 8]) ∧
  (∀ a c s f : Int,
    ¬((0 ≤ a ∧ a ≤ 255) ∧ (0 ≤ c ∧ c ≤ 255) ∧ (0 ≤ s ∧ s ≤ 255) ∧ (0 ≤ f ∧ f ≤ 255)) →
    buildCommandChecked a c s f = .error (.format a c s f))

/-- R104: FLDWR writes one field and clears TXRDY, for every field and value, and changes nothing else; SEL[3:2] ≠ 0 is
illegal. -/
def Obligations.FldwrWritesField : Prop :=
  (∀ (s : State) (d : Byte),
    exec (.fldwr .addr d) s =
      .next { s with block := { s.block with addr := d, status := s.block.status &&& 0xF7#8 } } ∧
    exec (.fldwr .cmd d) s =
      .next { s with block := { s.block with cmd := d, status := s.block.status &&& 0xF7#8 } } ∧
    exec (.fldwr .sub d) s =
      .next { s with block := { s.block with sub := d, status := s.block.status &&& 0xF7#8 } } ∧
    exec (.fldwr .flag d) s =
      .next { s with block := { s.block with flag := d, status := s.block.status &&& 0xF7#8 } }) ∧
  (∀ (s : State) (d : Byte),
    step { s with pending := .command (0x3000#16 ||| d.setWidth 16) :: s.pending } = exec (.fldwr .addr d) s ∧
    step { s with pending := .command (0x3100#16 ||| d.setWidth 16) :: s.pending } = exec (.fldwr .cmd d) s ∧
    step { s with pending := .command (0x3200#16 ||| d.setWidth 16) :: s.pending } = exec (.fldwr .sub d) s ∧
    step { s with pending := .command (0x3300#16 ||| d.setWidth 16) :: s.pending } = exec (.fldwr .flag d) s) ∧
  (∀ (s t : State) (f : FieldReg) (d : Byte), exec (.fldwr f d) s = .next t →
    t.block.txrdy = false ∧ t.block.valid = s.block.valid ∧ t.block.chkerr = s.block.chkerr ∧
    t.block.illegal = s.block.illegal) ∧
  (∀ w : CmdWord, w.extractLsb' 12 4 = 0x3#4 → w.extractLsb' 10 2 ≠ 0#2 → legal w = false)

/-- R105: BUILD writes the ten bytes and sets TXRDY, and changes nothing else (CRCREG included); twice gives the same;
the rule's examples. -/
def Obligations.BuildWritesWireImage : Prop :=
  (∀ s : State,
    let c := crc16 [s.block.addr, s.block.cmd, s.block.sub, s.block.flag, 0x00, 0x00, 0x00, 0x00]
    let built : Block :=
      { s.block with
        tx := #v[s.block.addr, s.block.cmd, s.block.sub, s.block.flag, 0x00, 0x00, 0x00, 0x00,
          c.extractLsb' 0 8, c.extractLsb' 8 8]
        status := s.block.status ||| 0x08#8 }
    exec .build s = .next { s with block := built } ∧
    step { s with pending := .command 0x4000#16 :: s.pending } = .next { s with block := built } ∧
    exec .build { s with block := built } = .next { s with block := built } ∧
    built.txrdy = true ∧ built.valid = s.block.valid ∧ built.chkerr = s.block.chkerr ∧
    built.illegal = s.block.illegal) ∧
  (∀ w : CmdWord, w.extractLsb' 12 4 = 0x4#4 → w ≠ 0x4000#16 → legal w = false) ∧
  (commandStep Block.reset 0x4000#16).tx.toList = [0x02, 0, 0, 0, 0, 0, 0, 0, 0x1C, 0x88] ∧
  (∀ b : Block, b.addr = 0x02#8 → b.cmd = 0x3B#8 → b.sub = 0x01#8 → b.flag = 0x00#8 →
    (commandStep b 0x4000#16).tx.toList = [0x02, 0x3B, 0x01, 0, 0, 0, 0, 0, 0xFF, 0x2C])

/-- R106 (the spec's inference): after BUILD and until a FLDWR, whatever else is presented, TX is the wire frame of the
fields and TXRDY = 1. -/
def Obligations.WireImageStaysCurrent : Prop :=
  ∀ (b : Block) (ws : List CmdWord), (∀ w ∈ ws, ∀ f d, decodeWord w ≠ .ok (.fldwr f d)) →
    let after := runWords b (0x4000#16 :: ws)
    after.txrdy = true ∧ after.tx.toList = wireFrame after.addr after.cmd after.sub after.flag ∧
    after.addr = b.addr ∧ after.cmd = b.cmd ∧ after.sub = b.sub ∧ after.flag = b.flag

/-- R107 (the spec's inference): the pseudo-instruction FRAME, with its frame. -/
def Obligations.FramePseudoInstruction : Prop :=
  ∀ (b : Block) (a c s f : Byte),
    let after := runWords b (frameWords a c s f)
    after.tx.toList = wireFrame a c s f ∧ after.addr = a ∧ after.cmd = c ∧ after.sub = s ∧ after.flag = f ∧
    after.txrdy = true ∧ after.crcreg = b.crcreg ∧ after.rx = b.rx ∧ after.dcalc = b.dcalc ∧ after.drecv = b.drecv ∧
    after.valid = b.valid ∧ after.chkerr = b.chkerr ∧ after.illegal = b.illegal

/-- R109 (the spec's inference): every wire frame checks, and leaves the residue. -/
def Obligations.EveryWireFrameChecks : Prop :=
  ∀ a c s f : Byte,
    verifyAndStrip (wireFrame a c s f) = .ok (buildCommand a c s f) ∧
    crcRaw 0xFFFF#16 (wireFrame a c s f) = 0xF0B8#16

/-! ## The response check -/

/-- R120, R121, R122: the byte order of a CRC, the check of a frame of two bytes or more, and of a shorter one. That
of the 2-byte frames only the zero one checks is R123, the spec's inference from R121 and R85. -/
def Obligations.VerifyAndStripChecksTail : Prop :=
  (∀ w : Word, wordToBytes w = [w.extractLsb' 0 8, w.extractLsb' 8 8]) ∧
  (∀ (data : List Byte) (x y : Byte),
    verifyAndStrip (data ++ [x, y]) =
      if wordToBytes (crc16 data) = [x, y] then .ok data
      else .error (.checksum (data ++ [x, y]) (wordToBytes (crc16 data)) [x, y])) ∧
  (∀ frame : List Byte, frame.length < 2 →
    verifyAndStrip frame = .error (.checksum frame [0x00, 0x00] frame)) ∧
  (∀ (x y : Byte) (data : List Byte), verifyAndStrip [x, y] = .ok data ↔ x = 0x00#8 ∧ y = 0x00#8 ∧ data = [])

/-- R126: RXWR writes one byte of RX and clears VALID and CHKERR, for every index and value, and changes nothing else;
SEL[3] = 1 is illegal. -/
def Obligations.RxwrWritesByte : Prop :=
  (∀ (s : State) (k : Fin 8) (d : Byte),
    let written : Block :=
      { s.block with rx := s.block.rx.set k.val d k.isLt, status := s.block.status &&& 0xFC#8 }
    exec (.rxwr k d) s = .next { s with block := written } ∧
    step { s with pending := .command (0x5000#16 ||| (BitVec.ofNat 16 k.val <<< 8) ||| d.setWidth 16) :: s.pending } =
      .next { s with block := written } ∧
    written.valid = false ∧ written.chkerr = false ∧ written.txrdy = s.block.txrdy ∧
    written.illegal = s.block.illegal) ∧
  (∀ w : CmdWord, w.extractLsb' 12 4 = 0x5#4 → w.extractLsb' 11 1 = 1#1 → legal w = false)

/-- R127: VERIFY, matched and not, for every content of RX, with its frame; and the rule's corner cases. That the
16-bit compare is the byte compare `wordToBytes(c) = [RX[6], RX[7]]` is the spec's inference from R120 (R127 marks the
sentence derived). -/
def Obligations.VerifyChecksResponse : Prop :=
  (∀ s : State,
    let c := crc16 (s.block.rx.toList.take 6)
    let recv := (s.block.rx[7].setWidth 16 <<< 8) ||| s.block.rx[6].setWidth 16
    let checked : Block :=
      { s.block with
        dcalc := c
        drecv := recv
        status :=
          if c = recv then (s.block.status &&& 0xFC#8) ||| 0x01#8 else (s.block.status &&& 0xFC#8) ||| 0x02#8 }
    exec .verify s = .next { s with block := checked } ∧
    step { s with pending := .command 0x6000#16 :: s.pending } = .next { s with block := checked } ∧
    exec .verify { s with block := checked } = .next { s with block := checked } ∧
    (checked.valid = true ↔ c = recv) ∧ (checked.chkerr = true ↔ c ≠ recv) ∧
    (c = recv ↔ wordToBytes c = [s.block.rx[6], s.block.rx[7]]) ∧
    checked.txrdy = s.block.txrdy ∧ checked.illegal = s.block.illegal) ∧
  (∀ w : CmdWord, w.extractLsb' 12 4 = 0x6#4 → w ≠ 0x6000#16 → legal w = false) ∧
  ((commandStep Block.reset 0x6000#16).chkerr = true ∧ (commandStep Block.reset 0x6000#16).dcalc = 0xF78F#16 ∧
    (commandStep Block.reset 0x6000#16).drecv = 0x0000#16) ∧
  (∀ (b : Block) (x y : Byte),
    (commandStep { b with rx := #v[0, 0, 0, 0, 0, 0, x, y] } 0x6000#16).valid = true ↔ x = 0x8F#8 ∧ y = 0xF7#8) ∧
  (∀ b : Block, b.rx = #v[0x00, 0x06, 0x43, 0x66, 0x80, 0x00, 0x35, 0xA0] →
    (commandStep b 0x6000#16).dcalc = 0xA035#16 ∧ (commandStep b 0x6000#16).drecv = 0xA035#16 ∧
    (commandStep b 0x6000#16).valid = true ∧ (commandStep b 0x6000#16).chkerr = false ∧
    (commandStep b 0x6000#16).payload = [0x00, 0x06, 0x43, 0x66, 0x80, 0x00])

/-- R162: ChecksumError on the block: what a mismatch records, that RX stays readable, and that it is not sticky. -/
def Obligations.ChecksumErrorIsRecorded : Prop :=
  (∀ s : State, (crc16 s.block.payload).toNat ≠ s.block.rx[7].toNat * 256 + s.block.rx[6].toNat →
    ∃ t, exec .verify s = .next t ∧ t.block.chkerr = true ∧ t.block.valid = false ∧
      t.block.dcalc = crc16 s.block.payload ∧
      t.block.drecv.toNat = s.block.rx[7].toNat * 256 + s.block.rx[6].toNat ∧ t.block.rx = s.block.rx) ∧
  (∀ s t : State, exec .verify s = .next t →
    (t.block.chkerr = true ↔ (crc16 s.block.payload).toNat ≠ s.block.rx[7].toNat * 256 + s.block.rx[6].toNat)) ∧
  (∀ (s : State) (k : Fin 8) (d : Byte), ∃ t, exec (.rxwr k d) s = .next t ∧ t.block.chkerr = false)

/-- R128 (the spec's inference): after a VERIFY that matched, and until an RXWR or another VERIFY, the payload view is
what the function returns, and the host reads it at 0x12 to 0x17. -/
def Obligations.PayloadIsVerifiedData : Prop :=
  ∀ (b : Block) (ws : List CmdWord),
    (∀ w ∈ ws, decodeWord w ≠ .ok .verify ∧ ∀ k d, decodeWord w ≠ .ok (.rxwr k d)) →
    (commandStep b 0x6000#16).valid = true →
    let after := runWords b (0x6000#16 :: ws)
    after.valid = true ∧ verifyAndStrip after.rx.toList = .ok after.payload ∧
    ∀ k : Fin 6, readPort after (BitVec.ofNat 8 (0x12 + k.val)) = after.payload[k.val]?

/-- R129 (the spec's inference): loading any eight bytes and checking them agrees with the function, in both outcomes. -/
def Obligations.CheckAgreesWithFunction : Prop :=
  ∀ (b : Block) (v : Vector Byte 8),
    let after := runWords b (checkWords v)
    (∀ d, verifyAndStrip v.toList = .ok d →
      after.valid = true ∧ after.chkerr = false ∧ after.rx.toList.take 6 = d) ∧
    (∀ e, verifyAndStrip v.toList = .error e →
      after.valid = false ∧ after.chkerr = true ∧ after.rx = v ∧
      e = .checksum v.toList (wordToBytes after.dcalc) (wordToBytes after.drecv))

/-- R130: the round-trip law, in the function for every message and on the block for every 6-byte payload. -/
def Obligations.RoundTripLaw : Prop :=
  (∀ p : List Byte, verifyAndStrip (p ++ wordToBytes (crc16 p)) = .ok p) ∧
  (∀ (b : Block) (p : List Byte) (v : Vector Byte 8), p.length = 6 → v.toList = p ++ wordToBytes (crc16 p) →
    (runWords b (checkWords v)).valid = true ∧ (runWords b (checkWords v)).payload = p)

/-- The source's property, quoted in R131, for frames of every length: flipping any one bit of a frame that checks makes
the check fail with ChecksumError. -/
def Obligations.SingleBitFlipIsDetected : Prop :=
  ∀ (frame data : List Byte) (j : Nat), verifyAndStrip frame = .ok data → j < 8 * frame.length →
    ∃ expected received,
      verifyAndStrip (flipBit frame j) = .error (.checksum (flipBit frame j) expected received)

/-- R131, for frames of eight bytes: a frame passes exactly when it leaves the residue; an error pattern changes the
register by its own syndrome; no single-bit syndrome is zero; every error of one, two or three bits is detected. The
argument, and the strengthening from one bit to two and three, are the spec's inference (R131 marks them derived). -/
def Obligations.UpToThreeBitErrorsAreDetected : Prop :=
  (∀ (b : Block) (v : Vector Byte 8),
    (runWords b (checkWords v)).valid = true ↔ crcRaw 0xFFFF#16 v.toList = 0xF0B8#16) ∧
  (∀ frame e : List Byte, e.length = frame.length →
    crcRaw 0xFFFF#16 (xorBytes frame e) = crcRaw 0xFFFF#16 frame ^^^ crcRaw 0x0000#16 e) ∧
  (∀ j : Nat, j < 64 → crcRaw 0x0000#16 (flipBit (List.replicate 8 0x00#8) j) ≠ 0x0000#16) ∧
  (∀ (b : Block) (v v' : Vector Byte 8) (e : List Byte),
    e.length = 8 → 1 ≤ bitWeight e → bitWeight e ≤ 3 → v'.toList = xorBytes v.toList e →
    (runWords b (checkWords v)).valid = true → (runWords b (checkWords v')).chkerr = true)

/-- R132: the 4-bit pattern `11 08 01 00 00 00 00 00` is not detected, on the rule's frame or on any frame that checks. -/
def Obligations.FourBitErrorPasses : Prop :=
  xorBytes [0x00, 0x06, 0x43, 0x66, 0x80, 0x00, 0x35, 0xA0] [0x11, 0x08, 0x01, 0, 0, 0, 0, 0] =
    [0x11, 0x0E, 0x42, 0x66, 0x80, 0x00, 0x35, 0xA0] ∧
  bitWeight [0x11, 0x08, 0x01, 0, 0, 0, 0, 0] = 4 ∧
  (∀ b : Block,
    (runWords b (checkWords #v[0x00, 0x06, 0x43, 0x66, 0x80, 0x00, 0x35, 0xA0])).valid = true ∧
    (runWords b (checkWords #v[0x11, 0x0E, 0x42, 0x66, 0x80, 0x00, 0x35, 0xA0])).valid = true) ∧
  (∀ (b : Block) (v v' : Vector Byte 8),
    v'.toList = xorBytes v.toList [0x11, 0x08, 0x01, 0, 0, 0, 0, 0] →
    ((runWords b (checkWords v')).valid = true ↔ (runWords b (checkWords v)).valid = true))

/-! ## The read port -/

/-- R31, R142: what each index reads, and that no other is mapped; CRCOUT's two bytes are the CRC in wire order. -/
def Obligations.ReadMap : Prop :=
  (∀ b : Block,
    readPort b 0x00 = some (b.crcreg.extractLsb' 0 8) ∧ readPort b 0x01 = some (b.crcreg.extractLsb' 8 8) ∧
    readPort b 0x02 = some ((b.crcreg ^^^ 0xFFFF#16).extractLsb' 0 8) ∧
    readPort b 0x03 = some ((b.crcreg ^^^ 0xFFFF#16).extractLsb' 8 8) ∧
    readPort b 0x04 = some b.addr ∧ readPort b 0x05 = some b.cmd ∧ readPort b 0x06 = some b.sub ∧
    readPort b 0x07 = some b.flag ∧
    (∀ k : Fin 10, readPort b (BitVec.ofNat 8 (0x08 + k.val)) = some b.tx[k.val]) ∧
    (∀ k : Fin 8, readPort b (BitVec.ofNat 8 (0x12 + k.val)) = some b.rx[k.val]) ∧
    readPort b 0x1A = some b.status ∧
    readPort b 0x1B = some (b.dcalc.extractLsb' 0 8) ∧ readPort b 0x1C = some (b.dcalc.extractLsb' 8 8) ∧
    readPort b 0x1D = some (b.drecv.extractLsb' 0 8) ∧ readPort b 0x1E = some (b.drecv.extractLsb' 8 8)) ∧
  (∀ (b : Block) (i : ReadIndex), 0x1F ≤ i.toNat → readPort b i = none) ∧
  (∀ (b : Block) (p : List Byte), b.crcreg = crcRaw 0xFFFF#16 p →
    ∃ lo hi, readPort b 0x02 = some lo ∧ readPort b 0x03 = some hi ∧ [lo, hi] = wordToBytes (crc16 p))

/-- R141, R143: a read answers one byte at the index asked for and changes neither the block nor what the host has still
to do; the byte of a mapped index is the state's; of an unmapped one (log entry 4) nothing is said. -/
def Obligations.ReadsChangeNothing : Prop :=
  ∀ (s : State) (i : ReadIndex),
    ∃ t v, step { s with pending := .read i :: s.pending } = .next t ∧
      t.block = s.block ∧ t.pending = s.pending ∧ t.answers = s.answers ++ [⟨i, v⟩] ∧
      (∀ x, readPort s.block i = some x → v = x ∧ t.draws = s.draws)

/-- R144: STATUS reads with bits 7:4 zero (in every state that meets the invariant) and its named bits in their places;
CRCOUT reads the complement of CRCREG; a read clears nothing, so the same read answers the same byte again. -/
def Obligations.StatusAndCrcoutReads : Prop :=
  (∀ b : Block, b.Inv →
    ∃ v, readPort b 0x1A = some v ∧ v.toNat < 16 ∧ v.getLsbD 0 = b.valid ∧ v.getLsbD 1 = b.chkerr ∧
      v.getLsbD 2 = b.illegal ∧ v.getLsbD 3 = b.txrdy) ∧
  (∀ b : Block, ∃ lo hi, readPort b 0x00 = some lo ∧ readPort b 0x01 = some hi ∧
    readPort b 0x02 = some (~~~lo) ∧ readPort b 0x03 = some (~~~hi)) ∧
  (∀ (s : State) (i j : ReadIndex), ∃ t, step { s with pending := .read i :: s.pending } = .next t ∧
    readPort t.block j = readPort s.block j)

/-! ## Rules of the whole machine -/

/-- R22, R23, R25, R26, R27, R29: which commands change each register but STATUS, over every step without reset. The
writers of STATUS, bit by bit, are StatusBitsSetAndCleared. -/
def Obligations.RegistersHaveTheirWriters : Prop :=
  ∀ s t : State, step s = .next t → s.nextIsReset = false →
    (t.block.crcreg ≠ s.block.crcreg → s.nextInstr = some .crcinit ∨ ∃ d, s.nextInstr = some (.crcbyte d)) ∧
    (∀ f : FieldReg, t.block.field f ≠ s.block.field f → ∃ d, s.nextInstr = some (.fldwr f d)) ∧
    (t.block.tx ≠ s.block.tx → s.nextInstr = some .build) ∧
    (∀ k : Fin 8, t.block.rx[k.val] ≠ s.block.rx[k.val] → ∃ d, s.nextInstr = some (.rxwr k d)) ∧
    (t.block.dcalc ≠ s.block.dcalc ∨ t.block.drecv ≠ s.block.drecv → s.nextInstr = some .verify)

/-- R28: what sets and what clears each bit of STATUS, over every step, and that nothing sets a reserved bit. -/
def Obligations.StatusBitsSetAndCleared : Prop :=
  ∀ s t : State, step s = .next t →
    (s.block.valid = false → t.block.valid = true →
      s.nextInstr = some .verify ∧ crc16 s.block.payload = s.block.received) ∧
    (s.block.valid = true → t.block.valid = false →
      (s.nextInstr = some .verify ∧ crc16 s.block.payload ≠ s.block.received) ∨
      (∃ k d, s.nextInstr = some (.rxwr k d)) ∨ s.nextIsReset = true) ∧
    (s.block.chkerr = false → t.block.chkerr = true →
      s.nextInstr = some .verify ∧ crc16 s.block.payload ≠ s.block.received) ∧
    (s.block.chkerr = true → t.block.chkerr = false →
      (s.nextInstr = some .verify ∧ crc16 s.block.payload = s.block.received) ∨
      (∃ k d, s.nextInstr = some (.rxwr k d)) ∨ s.nextIsReset = true) ∧
    (s.block.illegal = false → t.block.illegal = true → s.nextIsIllegal = true) ∧
    (s.block.illegal = true → t.block.illegal = false → s.nextIsReset = true) ∧
    (s.block.txrdy = false → t.block.txrdy = true → s.nextInstr = some .build) ∧
    (s.block.txrdy = true → t.block.txrdy = false → (∃ f d, s.nextInstr = some (.fldwr f d)) ∨ s.nextIsReset = true) ∧
    (s.block.status.extractLsb' 4 4 = 0#4 → t.block.status.extractLsb' 4 4 = 0#4)

/-- R28, R147: ILLEGAL after a run from reset says exactly that some word of it was illegal. -/
def Obligations.IllegalBitTellsIllegalWord : Prop :=
  ∀ ws : List CmdWord, (runWords Block.reset ws).illegal = true ↔ ∃ w ∈ ws, legal w = false

/-- R160: the codes of the error kinds, and where each is recorded on a block: a recorded error's code is its STATUS
bit; FormatError has no bit and records nothing. -/
def Obligations.ErrorCodesAndBits : Prop :=
  (ErrorKind.checksum.code = 1 ∧ ErrorKind.illegalCommand.code = 2 ∧ ErrorKind.format.code = 3) ∧
  (∀ b : Block,
    b.record .checksum = { b with status := b.status ||| 0x02#8 } ∧
    b.record .illegalCommand = { b with status := b.status ||| 0x04#8 } ∧ b.record .format = b) ∧
  (∀ (b : Block) (e : ErrorKind), e ≠ .format → (b.record e).status.getLsbD e.code = true)

/-- R166: the legality check comes first, and a command raises at most one error: an illegal word raises
IllegalCommand and executes nothing else; only a legal VERIFY raises ChecksumError; no other legal command raises
anything. -/
def Obligations.AtMostOneErrorPerCommand : Prop :=
  (∀ (b : Block) (w : CmdWord), legal w = false → commandStep b w = b.record .illegalCommand) ∧
  (∀ (b : Block) (w : CmdWord), legal w = true → (commandStep b w).illegal = b.illegal) ∧
  (∀ (b : Block) (w : CmdWord), w ≠ 0x6000#16 → (commandStep b w).chkerr = true → b.chkerr = true)

/-- The invariant holds at reset (R180; log entry 1 says how the state after reset is held). -/
def Obligations.InvariantAtReset : Prop := State.reset.Inv

/-- Every step keeps the invariant: reserved bits zero, at most one verdict, TX current while TXRDY = 1, TX always a
wire frame or the reset value with zero padding, and the diagnostics those of the RX that is there while a verdict
stands (R26, R28, R29, R30, R106, R108). -/
def Obligations.InvariantKeptByStep : Prop :=
  ∀ s t : State, s.Inv → step s = .next t → t.Inv

/-- D9, R23: the CRC stream, the frame builder and the response check do not interfere. After any words, each part's
registers and flags depend on that part alone. -/
def Obligations.PartsDoNotInterfere : Prop :=
  ∀ (b b' : Block) (ws : List CmdWord),
    (b.crcreg = b'.crcreg → (runWords b ws).crcreg = (runWords b' ws).crcreg) ∧
    ((∀ f, b.field f = b'.field f) → b.tx = b'.tx → b.txrdy = b'.txrdy →
      (∀ f, (runWords b ws).field f = (runWords b' ws).field f) ∧ (runWords b ws).tx = (runWords b' ws).tx ∧
      (runWords b ws).txrdy = (runWords b' ws).txrdy) ∧
    (b.rx = b'.rx → b.dcalc = b'.dcalc → b.drecv = b'.drecv → b.valid = b'.valid → b.chkerr = b'.chkerr →
      (runWords b ws).rx = (runWords b' ws).rx ∧ (runWords b ws).dcalc = (runWords b' ws).dcalc ∧
      (runWords b ws).drecv = (runWords b' ws).drecv ∧ (runWords b ws).valid = (runWords b' ws).valid ∧
      (runWords b ws).chkerr = (runWords b' ws).chkerr)

/-- R48 (the spec's inference): every word but a CRCBYTE gives the same state when repeated at once; a CRCBYTE does
not always. -/
def Obligations.CommandsAreIdempotent : Prop :=
  (∀ (b : Block) (w : CmdWord), (∀ d, decodeWord w ≠ .ok (.crcbyte d)) →
    commandStep (commandStep b w) w = commandStep b w) ∧
  (∃ (b : Block) (d : Byte), runWords b [encode (.crcbyte d), encode (.crcbyte d)] ≠ runWords b [encode (.crcbyte d)])

/-! ## The assembler -/

/-- R70, R102: a command assembles exactly when its integer operands are in range, and then no field is truncated;
FRAME out of range is FormatError. That FRAME is where R101's check is applied, and that its FormatError is carried
inside the assembly error (`.rejected`), is the model's choice of log entry 11. -/
def Obligations.AssemblerNeverTruncates : Prop :=
  (∀ c : AsmCmd, c.wf = true ↔ ∃ w, AsmCmd.assemble c = .ok w) ∧
  (∀ (c : AsmCmd) (w : CmdWord), AsmCmd.assemble c = .ok w →
    legal w = true ∧
    (w.toNat : Int) =
      match c with
      | .nop => 0x0000
      | .crcinit => 0x1000
      | .crcbyte d => 0x2000 + d
      | .fldwr f d => 0x3000 + 256 * f + d
      | .build => 0x4000
      | .rxwr i d => 0x5000 + 256 * i + d
      | .verify => 0x6000) ∧
  (∀ a c s f : Int,
    ¬((0 ≤ a ∧ a ≤ 255) ∧ (0 ≤ c ∧ c ≤ 255) ∧ (0 ≤ s ∧ s ≤ 255) ∧ (0 ≤ f ∧ f ≤ 255)) →
    AsmStmt.words (.frame a c s f) = .error (.rejected (.format a c s f)))

/-- R71 (effects derived there): CRC computes the CRC of its bytes; RXLOAD loads RX and leaves no verdict. FRAME and
CHECK have statements of their own. -/
def Obligations.CrcAndRxloadPseudoInstructions : Prop :=
  (∀ (b : Block) (p : List Byte),
    runWords b (crcWords p) = { b with crcreg := crcRaw 0xFFFF#16 p } ∧
    (runWords b (crcWords p)).crcout = crc16 p) ∧
  (∀ (b : Block) (v : Vector Byte 8),
    runWords b (rxloadWords v) = { b with rx := v, status := b.status &&& 0xFC#8 })
end

