-- ==== Sys2Proof/Laws/Decode.lean ====
section
/-! SUPPORT. The fields of a packed word, and the two bytes of a 16-bit value (30_encoding.md R60, 42_verify.md R120). -/

namespace Sys2Proof

/-! ## The fields of a packed word -/

/-- A number below 16 has no bit from 4 on. -/
theorem testBit_of_lt_16 (n k : Nat) (h : n < 16) (hk : 4 ≤ k) : n.testBit k = false :=
  Nat.testBit_lt_two_pow (Nat.lt_of_lt_of_le h (Nat.pow_le_pow_right (n := 2) (by decide) hk))

/-- The opcode of a packed word is the base's. -/
theorem opOf_packWord (op : BitVec 4) (sel : Nat) (d : Byte) (h : sel < 16) :
    opOf (packWord (op.setWidth 16 <<< 12) sel d) = op := by
  ext k hk
  have h16 : 12 + k < 16 := by omega
  have h16' : k < 16 := by omega
  have hs : (BitVec.ofNat 16 sel).getLsbD (12 + k - 8) = false := by
    rw [BitVec.getLsbD_ofNat, testBit_of_lt_16 sel _ h (by omega), Bool.and_false]
  have hd : d.getLsbD (12 + k) = false := BitVec.getLsbD_of_ge d _ (by omega)
  simp [opOf, packWord, BitVec.getLsbD_or, BitVec.getLsbD_shiftLeft, BitVec.getLsbD_setWidth, h16, h16', hs, hd,
    -BitVec.getElem_or, -BitVec.getLsbD_eq_getElem]
  exact BitVec.getLsbD_eq_getElem hk

/-- The selector of a packed word is the one packed. -/
theorem selOf_packWord (op : BitVec 4) (sel : Nat) (d : Byte) :
    selOf (packWord (op.setWidth 16 <<< 12) sel d) = BitVec.ofNat 4 sel := by
  ext k hk
  have h16 : 8 + k < 16 := by omega
  have h12 : 8 + k < 12 := by omega
  have hk16 : k < 16 := by omega
  simp [selOf, packWord, BitVec.getLsbD_or, BitVec.getLsbD_shiftLeft, BitVec.getLsbD_setWidth, h16, h12,
    -BitVec.getElem_or, -BitVec.getLsbD_eq_getElem]
  rw [← BitVec.getLsbD_eq_getElem hk, BitVec.getLsbD_ofNat, BitVec.getLsbD_ofNat]
  simp [hk, hk16]

/-- The data byte of a packed word is the one packed. -/
theorem dataOf_packWord (op : BitVec 4) (sel : Nat) (d : Byte) :
    dataOf (packWord (op.setWidth 16 <<< 12) sel d) = d := by
  ext k hk
  have h12 : k < 12 := by omega
  have h16 : k < 16 := by omega
  simp [dataOf, packWord, BitVec.getLsbD_or, BitVec.getLsbD_shiftLeft, BitVec.getLsbD_setWidth, hk, h12, h16,
    -BitVec.getElem_or, -BitVec.getLsbD_eq_getElem]
  exact BitVec.getLsbD_eq_getElem hk

/-! ## Bytes of words -/

@[simp] theorem lowByte_joinBytes (hi lo : Byte) : lowByte (joinBytes hi lo) = lo := by
  ext k hk
  have : k < 16 := by omega
  simp [lowByte, joinBytes, hk, this]

@[simp] theorem highByte_joinBytes (hi lo : Byte) : highByte (joinBytes hi lo) = hi := by
  ext k hk
  have : 8 + k < 16 := by omega
  simp [highByte, joinBytes, hk, this]

@[simp] theorem joinBytes_high_low (w : BitVec 16) : joinBytes (highByte w) (lowByte w) = w := by
  ext k hk
  simp only [joinBytes, highByte, lowByte, BitVec.getElem_or, BitVec.getElem_shiftLeft, BitVec.getElem_setWidth,
    BitVec.getLsbD_extractLsb']
  by_cases h : k < 8
  · simp [h, BitVec.getLsbD_eq_getElem hk]
  · have h8 : 8 + (k - 8) = k := by omega
    have h9 : k - 8 < 8 := by omega
    simp [h, h8, h9, BitVec.getLsbD_eq_getElem hk]

/-- A word is its two bytes. -/
theorem word_ext_bytes {v w : BitVec 16} (hl : lowByte v = lowByte w) (hh : highByte v = highByte w) : v = w := by
  rw [← joinBytes_high_low v, ← joinBytes_high_low w, hl, hh]

end Sys2Proof
end

