-- ==== Sys2Proof/Laws/State.lean ====
section
/-! SUPPORT. What each register update does to each field: one lemma per field per update, so that no later proof
unfolds a record update. -/

namespace Sys2Proof.Machine

/-! ## Updates of the block -/

@[simp] theorem Block.setCrcreg_crcreg (v : Word) (b : Block) : (b.setCrcreg v).crcreg = v := rfl

@[simp] theorem Block.setCrcreg_addr (v : Word) (b : Block) : (b.setCrcreg v).addr = b.addr := rfl

@[simp] theorem Block.setCrcreg_cmd (v : Word) (b : Block) : (b.setCrcreg v).cmd = b.cmd := rfl

@[simp] theorem Block.setCrcreg_sub (v : Word) (b : Block) : (b.setCrcreg v).sub = b.sub := rfl

@[simp] theorem Block.setCrcreg_flag (v : Word) (b : Block) : (b.setCrcreg v).flag = b.flag := rfl

@[simp] theorem Block.setCrcreg_tx (v : Word) (b : Block) : (b.setCrcreg v).tx = b.tx := rfl

@[simp] theorem Block.setCrcreg_rx (v : Word) (b : Block) : (b.setCrcreg v).rx = b.rx := rfl

@[simp] theorem Block.setCrcreg_status (v : Word) (b : Block) : (b.setCrcreg v).status = b.status := rfl

@[simp] theorem Block.setCrcreg_dcalc (v : Word) (b : Block) : (b.setCrcreg v).dcalc = b.dcalc := rfl

@[simp] theorem Block.setCrcreg_drecv (v : Word) (b : Block) : (b.setCrcreg v).drecv = b.drecv := rfl

@[simp] theorem Block.setTx_crcreg (t : Vector Byte 10) (b : Block) : (b.setTx t).crcreg = b.crcreg := rfl

@[simp] theorem Block.setTx_addr (t : Vector Byte 10) (b : Block) : (b.setTx t).addr = b.addr := rfl

@[simp] theorem Block.setTx_cmd (t : Vector Byte 10) (b : Block) : (b.setTx t).cmd = b.cmd := rfl

@[simp] theorem Block.setTx_sub (t : Vector Byte 10) (b : Block) : (b.setTx t).sub = b.sub := rfl

@[simp] theorem Block.setTx_flag (t : Vector Byte 10) (b : Block) : (b.setTx t).flag = b.flag := rfl

@[simp] theorem Block.setTx_tx (t : Vector Byte 10) (b : Block) : (b.setTx t).tx = t := rfl

@[simp] theorem Block.setTx_rx (t : Vector Byte 10) (b : Block) : (b.setTx t).rx = b.rx := rfl

@[simp] theorem Block.setTx_status (t : Vector Byte 10) (b : Block) : (b.setTx t).status = b.status := rfl

@[simp] theorem Block.setTx_dcalc (t : Vector Byte 10) (b : Block) : (b.setTx t).dcalc = b.dcalc := rfl

@[simp] theorem Block.setTx_drecv (t : Vector Byte 10) (b : Block) : (b.setTx t).drecv = b.drecv := rfl

@[simp] theorem Block.setDiagnostics_crcreg (c r : Word) (b : Block) : (b.setDiagnostics c r).crcreg = b.crcreg := rfl

@[simp] theorem Block.setDiagnostics_addr (c r : Word) (b : Block) : (b.setDiagnostics c r).addr = b.addr := rfl

@[simp] theorem Block.setDiagnostics_cmd (c r : Word) (b : Block) : (b.setDiagnostics c r).cmd = b.cmd := rfl

@[simp] theorem Block.setDiagnostics_sub (c r : Word) (b : Block) : (b.setDiagnostics c r).sub = b.sub := rfl

@[simp] theorem Block.setDiagnostics_flag (c r : Word) (b : Block) : (b.setDiagnostics c r).flag = b.flag := rfl

@[simp] theorem Block.setDiagnostics_tx (c r : Word) (b : Block) : (b.setDiagnostics c r).tx = b.tx := rfl

@[simp] theorem Block.setDiagnostics_rx (c r : Word) (b : Block) : (b.setDiagnostics c r).rx = b.rx := rfl

@[simp] theorem Block.setDiagnostics_status (c r : Word) (b : Block) : (b.setDiagnostics c r).status = b.status := rfl

@[simp] theorem Block.setDiagnostics_dcalc (c r : Word) (b : Block) : (b.setDiagnostics c r).dcalc = c := rfl

@[simp] theorem Block.setDiagnostics_drecv (c r : Word) (b : Block) : (b.setDiagnostics c r).drecv = r := rfl

@[simp] theorem Block.setRx_crcreg (i : Fin 8) (d : Byte) (b : Block) : (b.setRx i d).crcreg = b.crcreg := rfl

@[simp] theorem Block.setRx_addr (i : Fin 8) (d : Byte) (b : Block) : (b.setRx i d).addr = b.addr := rfl

@[simp] theorem Block.setRx_cmd (i : Fin 8) (d : Byte) (b : Block) : (b.setRx i d).cmd = b.cmd := rfl

@[simp] theorem Block.setRx_sub (i : Fin 8) (d : Byte) (b : Block) : (b.setRx i d).sub = b.sub := rfl

@[simp] theorem Block.setRx_flag (i : Fin 8) (d : Byte) (b : Block) : (b.setRx i d).flag = b.flag := rfl

@[simp] theorem Block.setRx_tx (i : Fin 8) (d : Byte) (b : Block) : (b.setRx i d).tx = b.tx := rfl

@[simp] theorem Block.setRx_rx (i : Fin 8) (d : Byte) (b : Block) : (b.setRx i d).rx = b.rx.set i.val d i.isLt := rfl

@[simp] theorem Block.setRx_status (i : Fin 8) (d : Byte) (b : Block) : (b.setRx i d).status = b.status := rfl

@[simp] theorem Block.setRx_dcalc (i : Fin 8) (d : Byte) (b : Block) : (b.setRx i d).dcalc = b.dcalc := rfl

@[simp] theorem Block.setRx_drecv (i : Fin 8) (d : Byte) (b : Block) : (b.setRx i d).drecv = b.drecv := rfl

@[simp] theorem Block.raise_crcreg (k : StatusBit) (b : Block) : (b.raise k).crcreg = b.crcreg := rfl

@[simp] theorem Block.raise_addr (k : StatusBit) (b : Block) : (b.raise k).addr = b.addr := rfl

@[simp] theorem Block.raise_cmd (k : StatusBit) (b : Block) : (b.raise k).cmd = b.cmd := rfl

@[simp] theorem Block.raise_sub (k : StatusBit) (b : Block) : (b.raise k).sub = b.sub := rfl

@[simp] theorem Block.raise_flag (k : StatusBit) (b : Block) : (b.raise k).flag = b.flag := rfl

@[simp] theorem Block.raise_tx (k : StatusBit) (b : Block) : (b.raise k).tx = b.tx := rfl

@[simp] theorem Block.raise_rx (k : StatusBit) (b : Block) : (b.raise k).rx = b.rx := rfl

@[simp] theorem Block.raise_status (k : StatusBit) (b : Block) : (b.raise k).status = statusSet k b.status := rfl

@[simp] theorem Block.raise_dcalc (k : StatusBit) (b : Block) : (b.raise k).dcalc = b.dcalc := rfl

@[simp] theorem Block.raise_drecv (k : StatusBit) (b : Block) : (b.raise k).drecv = b.drecv := rfl

@[simp] theorem Block.lower_crcreg (k : StatusBit) (b : Block) : (b.lower k).crcreg = b.crcreg := rfl

@[simp] theorem Block.lower_addr (k : StatusBit) (b : Block) : (b.lower k).addr = b.addr := rfl

@[simp] theorem Block.lower_cmd (k : StatusBit) (b : Block) : (b.lower k).cmd = b.cmd := rfl

@[simp] theorem Block.lower_sub (k : StatusBit) (b : Block) : (b.lower k).sub = b.sub := rfl

@[simp] theorem Block.lower_flag (k : StatusBit) (b : Block) : (b.lower k).flag = b.flag := rfl

@[simp] theorem Block.lower_tx (k : StatusBit) (b : Block) : (b.lower k).tx = b.tx := rfl

@[simp] theorem Block.lower_rx (k : StatusBit) (b : Block) : (b.lower k).rx = b.rx := rfl

@[simp] theorem Block.lower_status (k : StatusBit) (b : Block) : (b.lower k).status = statusClear k b.status := rfl

@[simp] theorem Block.lower_dcalc (k : StatusBit) (b : Block) : (b.lower k).dcalc = b.dcalc := rfl

@[simp] theorem Block.lower_drecv (k : StatusBit) (b : Block) : (b.lower k).drecv = b.drecv := rfl

@[simp] theorem Block.setField_crcreg (f : FieldReg) (d : Byte) (b : Block) : (b.setField f d).crcreg = b.crcreg := by
  cases f <;> rfl

@[simp] theorem Block.setField_tx (f : FieldReg) (d : Byte) (b : Block) : (b.setField f d).tx = b.tx := by
  cases f <;> rfl

@[simp] theorem Block.setField_rx (f : FieldReg) (d : Byte) (b : Block) : (b.setField f d).rx = b.rx := by
  cases f <;> rfl

@[simp] theorem Block.setField_status (f : FieldReg) (d : Byte) (b : Block) : (b.setField f d).status = b.status := by
  cases f <;> rfl

@[simp] theorem Block.setField_dcalc (f : FieldReg) (d : Byte) (b : Block) : (b.setField f d).dcalc = b.dcalc := by
  cases f <;> rfl

@[simp] theorem Block.setField_drecv (f : FieldReg) (d : Byte) (b : Block) : (b.setField f d).drecv = b.drecv := by
  cases f <;> rfl

/-- Writing a field register changes that field and no other. -/
@[simp] theorem Block.field_setField (g f : FieldReg) (d : Byte) (b : Block) :
    (b.setField f d).field g = if g = f then d else b.field g := by
  cases g <;> cases f <;> rfl

@[simp] theorem Block.setCrcreg_field (f : FieldReg) (v : Word) (b : Block) : (b.setCrcreg v).field f = b.field f := by
  cases f <;> rfl

@[simp] theorem Block.setTx_field (f : FieldReg) (t : Vector Byte 10) (b : Block) : (b.setTx t).field f = b.field f := by
  cases f <;> rfl

@[simp] theorem Block.setDiagnostics_field (f : FieldReg) (c r : Word) (b : Block) : (b.setDiagnostics c r).field f = b.field f := by
  cases f <;> rfl

@[simp] theorem Block.setRx_field (f : FieldReg) (i : Fin 8) (d : Byte) (b : Block) : (b.setRx i d).field f = b.field f := by
  cases f <;> rfl

@[simp] theorem Block.raise_field (f : FieldReg) (k : StatusBit) (b : Block) : (b.raise k).field f = b.field f := by
  cases f <;> rfl

@[simp] theorem Block.lower_field (f : FieldReg) (k : StatusBit) (b : Block) : (b.lower k).field f = b.field f := by
  cases f <;> rfl

/-! ## Updates of the machine -/

@[simp] theorem State.setBlock_block (b : Block) (s : State) : (s.setBlock b).block = b := rfl

@[simp] theorem State.setBlock_pending (b : Block) (s : State) : (s.setBlock b).pending = s.pending := rfl

@[simp] theorem State.setBlock_answers (b : Block) (s : State) : (s.setBlock b).answers = s.answers := rfl

@[simp] theorem State.setBlock_draws (b : Block) (s : State) : (s.setBlock b).draws = s.draws := rfl

@[simp] theorem State.pushCommand_block (w : CmdWord) (s : State) : (s.pushCommand w).block = s.block := rfl

@[simp] theorem State.pushCommand_pending (w : CmdWord) (s : State) : (s.pushCommand w).pending = .command w :: s.pending := rfl

@[simp] theorem State.pushCommand_answers (w : CmdWord) (s : State) : (s.pushCommand w).answers = s.answers := rfl

@[simp] theorem State.pushCommand_draws (w : CmdWord) (s : State) : (s.pushCommand w).draws = s.draws := rfl

@[simp] theorem State.setBlock_setBlock (b b' : Block) (s : State) : (s.setBlock b').setBlock b = s.setBlock b := rfl

@[simp] theorem State.setBlock_self (s : State) : s.setBlock s.block = s := rfl

end Sys2Proof.Machine
end

