-- ==== Sys2Proof/Laws/Flags.lean ====
section
/-! SUPPORT. Reading a STATUS bit after one bit was written. -/

namespace Sys2Proof.Machine

/-- Setting a bit sets that bit and leaves the others. -/
@[simp] theorem statusBit_statusSet (j k : StatusBit) (v : Byte) :
    statusBit j (statusSet k v) = (decide (j = k) || statusBit j v) := by
  cases j <;> cases k <;> simp [statusBit, statusSet, StatusBit.position, StatusBit.mask]

/-- Clearing a bit clears that bit and leaves the others. -/
@[simp] theorem statusBit_statusClear (j k : StatusBit) (v : Byte) :
    statusBit j (statusClear k v) = (!decide (j = k) && statusBit j v) := by
  cases j <;> cases k <;> simp [statusBit, statusClear, StatusBit.position, StatusBit.mask]

/-- No write of a named bit touches the reserved bits 7:4 (R28). -/
@[simp] theorem reserved_statusSet (k : StatusBit) (v : Byte) :
    (statusSet k v).extractLsb' 4 4 = v.extractLsb' 4 4 := by
  cases k <;> simp [statusSet, StatusBit.mask, BitVec.extractLsb'_or]

@[simp] theorem reserved_statusClear (k : StatusBit) (v : Byte) :
    (statusClear k v).extractLsb' 4 4 = v.extractLsb' 4 4 := by
  cases k <;>
    (simp [statusClear, StatusBit.mask, BitVec.extractLsb'_and]
     exact BitVec.and_allOnes)

/-! ## The four named bits of the block -/

/-- A named bit depends on STATUS alone. -/
theorem Block.bits_of_status {b b' : Block} (h : b.status = b'.status) :
    b.valid = b'.valid ∧ b.chkerr = b'.chkerr ∧ b.illegal = b'.illegal ∧ b.txrdy = b'.txrdy := by
  simp [Block.valid, Block.chkerr, Block.illegal, Block.txrdy, h]

end Sys2Proof.Machine
end

