-- ==== Sys2Proof/Laws/Ops.lean ====
section
/-! SUPPORT. What the shared operations do, said once each. -/

namespace Sys2Proof.Machine

/-- Recording an error sets the STATUS bit of its kind and nothing else; FormatError has none (R160). -/
theorem Block.record_eq (e : ErrorKind) (b : Block) :
    b.record e =
      match e with
      | .checksum => b.raise .chkerr
      | .illegalCommand => b.raise .illegal
      | .format => b := by
  cases e <;> rfl

@[simp] theorem Block.record_checksum (b : Block) : b.record .checksum = b.raise .chkerr := rfl

@[simp] theorem Block.record_illegalCommand (b : Block) : b.record .illegalCommand = b.raise .illegal := rfl

@[simp] theorem Block.illegalStep_eq (b : Block) : b.illegalStep = b.raise .illegal := rfl

/-- The code of a recorded error is its STATUS bit's position (R160). -/
theorem ErrorKind.code_eq_position {e : ErrorKind} {k : StatusBit} (h : e.statusBit? = some k) : e.code = k.position := by
  cases e <;> simp [ErrorKind.statusBit?] at h <;> subst h <;> rfl

/-- CRCOUT is the complement of CRCREG (R24). -/
theorem Block.crcout_eq (b : Block) : b.crcout = ~~~b.crcreg := BitVec.xor_allOnes

/-- An answered read leaves the block and the host's program. -/
@[simp] theorem answerRead_block (i : ReadIndex) (s : State) : (answerRead i s).block = s.block := by
  unfold answerRead; split <;> rfl

@[simp] theorem answerRead_pending (i : ReadIndex) (s : State) : (answerRead i s).pending = s.pending := by
  unfold answerRead; split <;> rfl

/-- A mapped read appends the state's byte and draws nothing. -/
theorem answerRead_mapped {i : ReadIndex} {s : State} {v : Byte} (h : readPort s.block i = some v) :
    answerRead i s = { s with answers := s.answers ++ [⟨i, v⟩] } := by
  simp [answerRead, h]

/-- An unmapped read appends the free value and advances its counter. -/
theorem answerRead_unmapped {i : ReadIndex} {s : State} (h : readPort s.block i = none) :
    answerRead i s =
      { s with answers := s.answers ++ [⟨i, Config.unmappedByte s.draws i⟩], draws := s.draws + 1 } := by
  simp [answerRead, h]

end Sys2Proof.Machine
end

