-- ==== Sys2Proof/Laws/Crc.lean ====
section
/-! SUPPORT. Small laws of the CRC functions, the frames and the meanings. -/

namespace Sys2Proof.Machine

@[simp] theorem crcRaw_nil (r : Word) : crcRaw r [] = r := rfl

@[simp] theorem crcRaw_cons (r : Word) (d : Byte) (p : List Byte) : crcRaw r (d :: p) = crcRaw (crcByte r d) p := rfl

/-- Composition (R92). -/
@[simp] theorem crcRaw_append (r : Word) (p q : List Byte) : crcRaw r (p ++ q) = crcRaw (crcRaw r p) q :=
  List.foldl_append

/-- The CRC is the complement of the raw register (R84). -/
theorem crc16_eq (p : List Byte) : crc16 p = ~~~crcRaw Config.crcSeed p := BitVec.xor_allOnes

/-- A word's bytes, low byte first (R120). -/
theorem wordToBytes_eq (w : Word) : wordToBytes w = [lowByte w, highByte w] := rfl

@[simp] theorem wordToBytes_length (w : Word) : (wordToBytes w).length = 2 := rfl

/-- Two words have the same wire bytes only if they are equal. -/
theorem wordToBytes_inj {v w : Word} : wordToBytes v = wordToBytes w ↔ v = w := by
  refine ⟨fun h => ?_, congrArg _⟩
  simp only [wordToBytes_eq, List.cons.injEq, and_true] at h
  exact word_ext_bytes h.1 h.2

/-- The wire bytes of a word are two given bytes exactly when the word joins them (R127's compare). -/
theorem wordToBytes_eq_pair {w : Word} {lo hi : Byte} : wordToBytes w = [lo, hi] ↔ w = joinBytes hi lo := by
  rw [← wordToBytes_inj]
  simp [wordToBytes_eq]

/-- The command frame, byte by byte (R100). -/
theorem buildCommand_eq (a c s f : Byte) : buildCommand a c s f = [a, c, s, f, 0, 0, 0, 0] := rfl

@[simp] theorem txImage_toList (a c s f : Byte) : (txImage a c s f).toList = wireFrame a c s f := rfl

/-- The bytes before and after the cut of a frame that ends in two given bytes (R121). -/
theorem take_drop_tail (data : List Byte) (x y : Byte) :
    (data ++ [x, y]).take ((data ++ [x, y]).length - 2) = data ∧
      (data ++ [x, y]).drop ((data ++ [x, y]).length - 2) = [x, y] := by
  simp

/-! ## The parameters of R8 are the widths and lengths of the types -/

theorem widths_eq :
    Byte = BitVec Config.byteWidth ∧ Word = BitVec Config.crcWidth ∧ CmdWord = BitVec Config.cmdWordWidth ∧
      ReadIndex = BitVec Config.readIndexWidth := ⟨rfl, rfl, rfl, rfl⟩

theorem buildCommand_length (a c s f : Byte) : (buildCommand a c s f).length = Config.cmdFrameLen := rfl

theorem Block.tx_length (b : Block) : b.tx.toList.length = Config.txFrameLen := b.tx.length_toList

theorem Block.rx_length (b : Block) : b.rx.toList.length = Config.rxFrameLen := b.rx.length_toList

theorem Block.payload_length (b : Block) : b.payload.length = Config.payloadLen := by
  simp [Block.payload, Config.payloadLen]

/-! ## What the commands do to the block -/

@[simp] theorem Block.crcinit_eq (b : Block) : b.crcinit = b.setCrcreg Config.crcSeed := rfl

@[simp] theorem Block.crcbyte_eq (d : Byte) (b : Block) : b.crcbyte d = b.setCrcreg (crcByte b.crcreg d) := rfl

@[simp] theorem Block.fldwr_eq (f : FieldReg) (d : Byte) (b : Block) : b.fldwr f d = (b.setField f d).lower .txrdy := rfl

@[simp] theorem Block.build_eq (b : Block) :
    b.build = (b.setTx (txImage b.addr b.cmd b.sub b.flag)).raise .txrdy := rfl

@[simp] theorem Block.rxwr_eq (i : Fin 8) (d : Byte) (b : Block) :
    b.rxwr i d = ((b.setRx i d).lower .valid).lower .chkerr := rfl

/-- The two outcomes of VERIFY (R127). -/
theorem Block.verify_eq (b : Block) :
    b.verify =
      if crc16 b.payload = b.received then
        ((b.setDiagnostics (crc16 b.payload) b.received).raise .valid).lower .chkerr
      else ((b.setDiagnostics (crc16 b.payload) b.received).lower .valid).raise .chkerr := rfl

/-- The payload and the received CRC depend on RX alone. -/
theorem Block.views_of_rx {b b' : Block} (h : b.rx = b'.rx) : b.payload = b'.payload ∧ b.received = b'.received := by
  simp [Block.payload, Block.received, h]

end Sys2Proof.Machine
end

