-- ==== Sys2Proof/Laws/PerInstr.lean ====
section
/-! SUPPORT. One family of statements about every command as syntax: the word of a command has the opcode of its row
(30_encoding.md R62). -/

namespace Sys2Proof.Laws

/-- The opcode of a command's row (R62). -/
def rowOpcode : Instr → BitVec 4
  | .nop => 0x0#4
  | .crcinit => 0x1#4
  | .crcbyte _ => 0x2#4
  | .fldwr _ _ => 0x3#4
  | .build => 0x4#4
  | .rxwr _ _ => 0x5#4
  | .verify => 0x6#4

namespace Opcode

def Statement (i : Instr) : Prop := opOf (encode i) = rowOpcode i

theorem nop : Statement .nop := rfl

theorem crcinit : Statement .crcinit := rfl

theorem crcbyte (d : Byte) : Statement (.crcbyte d) := opOf_packWord 0x2#4 0 d (by decide)

theorem fldwr (f : FieldReg) (d : Byte) : Statement (.fldwr f d) :=
  opOf_packWord 0x3#4 f.index d (by cases f <;> decide)

theorem build : Statement .build := rfl

theorem rxwr (i : Fin 8) (d : Byte) : Statement (.rxwr i d) :=
  opOf_packWord 0x5#4 i.val d (Nat.lt_trans i.isLt (by decide))

theorem verify : Statement .verify := rfl

end Opcode

end Sys2Proof.Laws
end

