-- ==== Sys2Proof/Laws/Step.lean ====
section
/-! SUPPORT. What a command, a host event and a step can do, said once each. -/

namespace Sys2Proof.Machine

/-- What a command does to the block. -/
def blockAfter (i : Instr) (b : Block) : Block :=
  match i with
  | .nop => b
  | .crcinit => b.crcinit
  | .crcbyte d => b.crcbyte d
  | .fldwr f d => b.fldwr f d
  | .build => b.build
  | .rxwr k d => b.rxwr k d
  | .verify => b.verify

/-- Every command answers a next state, and touches only the block. -/
theorem exec_eq (i : Instr) (s : State) : exec i s = .next (s.setBlock (blockAfter i s.block)) := by
  cases i <;> rfl

/-- A presented word runs as its command or is recorded as illegal. -/
theorem present_eq (w : CmdWord) (s : State) :
    present w s =
      .next (s.setBlock (match decodeWord w with
        | .ok i => blockAfter i s.block
        | .error _ => s.block.raise .illegal)) := by
  unfold present
  cases decodeWord w with
  | ok i => exact exec_eq i s
  | error _ => rfl

/-- With nothing pending, a step holds the state. -/
theorem step_idle {s : State} (h : s.pending = []) : step s = .next s := by
  simp [step, nextEvent, h]

/-- With an event pending, a step serves it on the state without it. -/
theorem step_event {s : State} {e : HostEvent} {rest : List HostEvent} (h : s.pending = e :: rest) :
    step s = serve e { s with pending := rest } := by
  simp [step, nextEvent, h]

/-- Everything a step can do. -/
theorem step_cases {s t : State} (h : step s = .next t) :
    (s.pending = [] ∧ t = s) ∨
    (∃ w i rest, s.pending = .command w :: rest ∧ decodeWord w = .ok i ∧
      t = { s with pending := rest, block := blockAfter i s.block }) ∨
    (∃ w e rest, s.pending = .command w :: rest ∧ decodeWord w = .error e ∧
      t = { s with pending := rest, block := s.block.raise .illegal }) ∨
    (∃ i rest, s.pending = .read i :: rest ∧ t = answerRead i { s with pending := rest }) ∨
    (∃ p rest, s.pending = .reset p :: rest ∧ t = { s with pending := rest, block := Block.reset }) := by
  match hp : s.pending with
  | [] =>
    rw [step_idle hp] at h
    exact .inl ⟨rfl, (Host.Outcome.next.inj h).symm⟩
  | .command w :: rest =>
    rw [step_event hp] at h
    simp only [serve, present_eq, Host.Outcome.next.injEq] at h
    cases hd : decodeWord w with
    | ok i => exact .inr (.inl ⟨w, i, rest, rfl, hd, by simp [← h, hd, State.setBlock]⟩)
    | error e => exact .inr (.inr (.inl ⟨w, e, rest, rfl, hd, by simp [← h, hd, State.setBlock]⟩))
  | .read i :: rest =>
    rw [step_event hp] at h
    exact .inr (.inr (.inr (.inl ⟨i, rest, rfl, (Host.Outcome.next.inj h).symm⟩)))
  | .reset p :: rest =>
    rw [step_event hp] at h
    exact .inr (.inr (.inr (.inr ⟨p, rest, rfl, (Host.Outcome.next.inj h).symm⟩)))

@[simp] theorem runWords_nil (b : Block) : runWords b [] = b := rfl

@[simp] theorem runWords_cons (b : Block) (w : CmdWord) (ws : List CmdWord) :
    runWords b (w :: ws) = runWords (commandStep b w) ws := rfl

@[simp] theorem runWords_append (b : Block) (us ws : List CmdWord) :
    runWords b (us ++ ws) = runWords (runWords b us) ws :=
  List.foldl_append

end Sys2Proof.Machine
end

