-- ==== Sys2Proof/Tests/Slice0.lean ====
section
/-! SUPPORT. Small tests on fixed values. Every expected value is the spec's own, from 95_test_vectors.md (V1 to V33, P1 to
P5) or the rule named beside it; none was read off the model. -/

namespace Sys2Proof.Tests

open Sys2Proof.Machine

/-! ## Well-formedness of commands with integer operands (R70): one ill-formed term for each check -/

theorem test_wf_accepts_bounds :
    (AsmCmd.crcbyte 255).wf ∧ (AsmCmd.fldwr 3 0).wf ∧ (AsmCmd.rxwr 7 255).wf := by decide

theorem test_wf_refuses_byte_256 : (AsmCmd.crcbyte 256).wf = false := by decide

theorem test_wf_refuses_negative_byte : (AsmCmd.crcbyte (-1)).wf = false := by decide

theorem test_wf_refuses_field_4 : (AsmCmd.fldwr 4 0).wf = false := by decide

theorem test_wf_refuses_field_value_256 : (AsmCmd.fldwr 0 256).wf = false := by decide

theorem test_wf_refuses_rx_index_8 : (AsmCmd.rxwr 8 0).wf = false := by decide

theorem test_wf_refuses_rx_value_negative : (AsmCmd.rxwr 0 (-1)).wf = false := by decide

/-! ## Decoding: the words of V7, V12, V22 and V30, written out bit by bit from R62 -/

theorem test_decode_nop : decodeWord 0b0000000000000000#16 = .ok .nop := by decide

theorem test_decode_crcinit : decodeWord 0b0001000000000000#16 = .ok .crcinit := by decide

theorem test_decode_crcbyte : decodeWord 0b0010000000000010#16 = .ok (.crcbyte 0x02) := by decide

theorem test_decode_fldwr : decodeWord 0b0011000100111011#16 = .ok (.fldwr .cmd 0x3B) := by decide

theorem test_decode_build : decodeWord 0b0100000000000000#16 = .ok .build := by decide

theorem test_decode_rxwr : decodeWord 0b0101011000110101#16 = .ok (.rxwr 6 0x35) := by decide

theorem test_decode_verify : decodeWord 0b0110000000000000#16 = .ok .verify := by decide

theorem test_decode_fields :
    decodeWord 0x3002#16 = .ok (.fldwr .addr 0x02) ∧ decodeWord 0x3201#16 = .ok (.fldwr .sub 0x01) ∧
      decodeWord 0x33FF#16 = .ok (.fldwr .flag 0xFF) := by decide

theorem test_decode_rejects_by_name :
    decodeWord 0x00FF#16 = .error (.dataNotZero 0xFF) ∧ decodeWord 0x1100#16 = .error (.selNotZero 1) ∧
      decodeWord 0x2100#16 = .error (.selNotZero 1) ∧ decodeWord 0x3400#16 = .error (.fieldSelector 4) ∧
      decodeWord 0x4001#16 = .error (.dataNotZero 1) ∧ decodeWord 0x5800#16 = .error (.rxSelector 8) ∧
      decodeWord 0x6001#16 = .error (.dataNotZero 1) ∧ decodeWord 0xFFFF#16 = .error (.reservedOpcode 0xF) := by decide

/-- The "yes" and "no" rows of V30. -/
theorem test_legal_rows :
    ([0x0000#16, 0x1000#16, 0x2000#16, 0x20FF#16, 0x3000#16, 0x33FF#16, 0x4000#16, 0x5000#16, 0x57FF#16,
      0x6000#16].all legal) = true ∧
    ([0x0001#16, 0x00FF#16, 0x1001#16, 0x1100#16, 0x2100#16, 0x2F00#16, 0x3400#16, 0x3800#16, 0x3C00#16, 0x4001#16,
      0x5800#16, 0x6001#16, 0x7000#16, 0x8000#16, 0xFFFF#16].any legal) = false := by decide

/-- The table's numbering of a 16-bit word is the word's own (R9). -/
theorem test_decodeTableWord : decodeTableWord 16 0x5635 = some (.rxwr 6 0x35) ∧ decodeTableWord 16 0x7000 = none := by
  decide

/-- Both orders of a byte stream carry the same command (R60: `CMD_PORT_BYTE_ORDER` is a parameter). -/
theorem test_decodeBytes :
    decodeBytes .lowFirst [0x3B, 0x31, 0xAA] = .ok (.fldwr .cmd 0x3B, [0xAA]) ∧
      decodeBytes .highFirst [0x31, 0x3B, 0xAA] = .ok (.fldwr .cmd 0x3B, [0xAA]) ∧
      decodeBytes .lowFirst [0x3B] = .error (.truncated 1) := by decide

/-! ## The pure functions -/

/-- V1. -/
theorem test_crcBit :
    crcBit 0xFFFF#16 false = 0xFBF7#16 ∧ crcBit 0xFFFF#16 true = 0x7FFF#16 ∧ crcBit 0x0001#16 true = 0x0000#16 := by
  decide

/-- V2. -/
theorem test_crcByte :
    crcByte 0xFFFF#16 0x02 = 0x2C95#16 ∧ crcByte 0x1234#16 0x80 = 0xF3BD#16 ∧ crcByte 0x0000#16 0xFF = 0x0F78#16 := by
  decide

/-- V4 and V6: the empty message, and the check string "123456789". -/
theorem test_crc16 :
    crc16 [] = 0x0000#16 ∧ crc16 [0x31, 0x32, 0x33, 0x34, 0x35, 0x36, 0x37, 0x38, 0x39] = 0x906E#16 := by decide +kernel

/-- V11, row 3. -/
theorem test_wireFrame : wireFrame 0x02 0x3B 0x01 0x01 = [0x02, 0x3B, 0x01, 0x01, 0, 0, 0, 0, 0xBB, 0x27] := by decide +kernel

/-- V10. -/
theorem test_buildCommandChecked :
    buildCommandChecked 0 0 0 255 = .ok [0, 0, 0, 0xFF, 0, 0, 0, 0] ∧
      buildCommandChecked 0 0 0 256 = .error (.format 0 0 0 256) ∧
      buildCommandChecked (-1) 0 0 0 = .error (.format (-1) 0 0 0) := by decide

/-- V20. -/
theorem test_wordToBytes : wordToBytes 0xA035#16 = [0x35, 0xA0] := by decide

/-- V21, rows 2, 3, 4, 5 and 8. -/
theorem test_verifyAndStrip :
    verifyAndStrip [0x00] = .error (.checksum [0x00] [0x00, 0x00] [0x00]) ∧ verifyAndStrip [0x00, 0x00] = .ok [] ∧
      verifyAndStrip [0x00, 0x01] = .error (.checksum [0x00, 0x01] [0x00, 0x00] [0x00, 0x01]) ∧
      verifyAndStrip [0x41, 0xF5, 0xA3] = .ok [0x41] ∧
      verifyAndStrip [0x00, 0x06, 0x43, 0x66, 0x80, 0x00, 0xA0, 0x35] =
        .error (.checksum [0x00, 0x06, 0x43, 0x66, 0x80, 0x00, 0xA0, 0x35] [0x35, 0xA0] [0xA0, 0x35]) := by decide +kernel

/-! ## One step of each command -/

/-- A block with every flag set but VALID, stale diagnostics and a frame in RX (the RX of V23, row 3). -/
def busyBlock : Block :=
  { Block.reset with
    crcreg := 0x1234, rx := #v[0x01, 0x06, 0x43, 0x66, 0x80, 0x00, 0x35, 0xA0], status := 0x0E, dcalc := 0xA035,
    drecv := 0xA035 }

/-- A machine with that block, whose host presents one word. -/
def presenting (b : Block) (w : Nat) : State := ({ State.reset with block := b }).withFetchWord 16 w

/-- The block after a step that answers a next state. -/
def nextBlock (o : Host.Outcome State Fault Refusal) : Option Block :=
  match o with
  | .next t => some t.block
  | .fault _ => none
  | .refused _ => none

/-- V32: NOP changes nothing. -/
theorem test_nop : nextBlock (step (presenting busyBlock 0x0000)) = some busyBlock := by decide

/-- V32: an illegal word sets ILLEGAL only. -/
theorem test_illegal :
    nextBlock (step (presenting Block.reset 0x00FF)) = some { Block.reset with status := 0x04 } := by decide

/-- V7, row 1. -/
theorem test_crcinit :
    nextBlock (step (presenting busyBlock 0x1000)) = some { busyBlock with crcreg := 0xFFFF } := by decide

/-- V7, row 2. -/
theorem test_crcbyte :
    nextBlock (step (presenting Block.reset 0x2002)) = some { Block.reset with crcreg := 0x2C95 } := by decide

/-- V7, row 4: the fixed point zero. -/
theorem test_crcbyte_zero :
    nextBlock (step (presenting { Block.reset with crcreg := 0 } 0x2000)) = some { Block.reset with crcreg := 0 } := by
  decide

/-- V12: the field is written and TXRDY falls; CHKERR and ILLEGAL stay. -/
theorem test_fldwr :
    nextBlock (step (presenting busyBlock 0x313B)) = some { busyBlock with cmd := 0x3B, status := 0x06 } := by decide

/-- R104: TXRDY is cleared even when the new value equals the old one. -/
theorem test_fldwr_same_value :
    nextBlock (step (presenting busyBlock 0x3002)) = some { busyBlock with status := 0x06 } := by decide

/-- V13: BUILD right after reset. -/
theorem test_build :
    nextBlock (step (presenting Block.reset 0x4000)) =
      some { Block.reset with tx := #v[0x02, 0, 0, 0, 0, 0, 0, 0, 0x1C, 0x88], status := 0x08 } := by decide +kernel

/-- V22: VALID and CHKERR fall; the diagnostics stay. -/
theorem test_rxwr :
    nextBlock (step (presenting busyBlock 0x5000)) =
      some { busyBlock with rx := #v[0x00, 0x06, 0x43, 0x66, 0x80, 0x00, 0x35, 0xA0], status := 0x0C } := by decide

/-- V23, row 3: a mismatch. -/
theorem test_verify_mismatch :
    nextBlock (step (presenting busyBlock 0x6000)) = some { busyBlock with dcalc := 0xA41E } := by decide +kernel

/-- V23, row 2: a match sets VALID and clears CHKERR. -/
theorem test_verify_match :
    nextBlock (step (presenting { busyBlock with rx := #v[0x00, 0x06, 0x43, 0x66, 0x80, 0x00, 0x35, 0xA0] } 0x6000)) =
      some { busyBlock with
        rx := #v[0x00, 0x06, 0x43, 0x66, 0x80, 0x00, 0x35, 0xA0], status := 0x0D } := by decide +kernel

/-! ## Read port and reset -/

/-- V31: the 31 mapped bytes after reset, and the first and last unmapped index. -/
theorem test_readPort_reset :
    ((List.range 31).map fun i => readPort Block.reset (BitVec.ofNat 8 i)) =
      ([0xFF, 0xFF, 0x00, 0x00, 0x02, 0x00, 0x00, 0x00] ++ List.replicate 23 0x00).map some ∧
    readPort Block.reset 0x1F = none ∧ readPort Block.reset 0xFF = none := by decide

/-- P3's end: read port 0x1B to 0x1E returns 1E A4 35 A0. -/
theorem test_readPort_diagnostics :
    ([0x1B, 0x1C, 0x1D, 0x1E].map fun i => readPort { busyBlock with dcalc := 0xA41E } i) =
      [some 0x1E, some 0xA4, some 0x35, some 0xA0] := by decide

/-- R181: a command presented while reset is asserted is discarded. -/
theorem test_reset_discards :
    nextBlock (step { State.reset with block := busyBlock, pending := [.reset (some 0x2002)] }) = some Block.reset := by
  decide

/-! ## The assembler -/

/-- P1's lines: names, hexadecimal and decimal numbers, comments. -/
theorem test_assemble_text :
    assembleText "FLDWR ADDR, 0x02 ; address\n\nFLDWR 1, 59\nBUILD".toList = .ok [0x3002, 0x313B, 0x4000] := by decide

/-- R71: pseudo-instructions; a quoted character stands for its ASCII code. -/
theorem test_assemble_pseudo :
    assembleText "CRC '1', '2'\nFRAME 2, 0x3B, 1, 0".toList =
      .ok [0x1000, 0x2031, 0x2032, 0x3002, 0x313B, 0x3201, 0x3300, 0x4000] := by decide

/-- R70: out of range is an error, never a truncated field; R102: FRAME's is FormatError. -/
theorem test_assemble_refuses :
    assembleLine "CRCBYTE 256".toList = .error (.byteRange 256) ∧
      assembleLine "RXWR 8, 0".toList = .error (.rxRange 8) ∧
      assembleLine "FRAME 2, 256, 0, 0".toList = .error (.rejected (.format 2 256 0 0)) ∧
      assembleLine "BUILD 1".toList = .error .operands := by decide

/-! ## Witnesses: for each statement with hypotheses, a concrete case that meets them -/

/-- The end of P2: a verified response, a current TX. -/
def verifiedBlock : Block :=
  { Block.reset with
    cmd := 0x3B, sub := 0x01, tx := #v[0x02, 0x3B, 0x01, 0, 0, 0, 0, 0, 0xFF, 0x2C],
    rx := #v[0x00, 0x06, 0x43, 0x66, 0x80, 0x00, 0x35, 0xA0], status := 0x09, dcalc := 0xA035, drecv := 0xA035 }

/-- The end of P3: a corrupted response, a current TX. -/
def corruptedBlock : Block :=
  { verifiedBlock with
    rx := #v[0x01, 0x06, 0x43, 0x66, 0x80, 0x00, 0x35, 0xA0], status := 0x0A, dcalc := 0xA41E }

/-- The frame of V21, row 6. -/
def goodFrame : Vector Byte 8 := #v[0x00, 0x06, 0x43, 0x66, 0x80, 0x00, 0x35, 0xA0]

theorem test_witness_inv_verified : verifiedBlock.Inv where
  reservedZero := by decide
  notBoth := by decide
  txCurrent := by decide +kernel
  txBuilt := .inr ⟨0x02, 0x3B, 0x01, 0x00, by decide +kernel⟩
  padZero := by decide
  verdictCurrent := by decide +kernel
  validAgrees := by decide
  chkerrDiffers := by decide

theorem test_witness_inv_corrupted : corruptedBlock.Inv where
  reservedZero := by decide
  notBoth := by decide
  txCurrent := by decide +kernel
  txBuilt := .inr ⟨0x02, 0x3B, 0x01, 0x00, by decide +kernel⟩
  padZero := by decide
  verdictCurrent := by decide +kernel
  validAgrees := by decide
  chkerrDiffers := by decide

theorem test_witness_InvariantKeptByStep :
    (presenting verifiedBlock 0x5001).Inv ∧ ∃ t, step (presenting verifiedBlock 0x5001) = .next t :=
  ⟨test_witness_inv_verified, _, rfl⟩

theorem test_witness_StatusAndCrcoutReads : corruptedBlock.Inv := test_witness_inv_corrupted

theorem test_witness_ResetLoadsEveryRegister :
    ∃ s t : State, s.block.illegal = true ∧ step s = .next t ∧ t.block.illegal = false :=
  ⟨{ State.reset with block := busyBlock, pending := [.reset none] }, _, by decide, rfl, by decide⟩

theorem test_witness_EncodeOfDecode : decodeWord 0x33FF#16 = .ok (.fldwr .flag 0xFF) := by decide

theorem test_witness_LegalWords :
    ∃ r ∈ opRows, 0x57FF#16 &&& r.mask = r.pattern := ⟨⟨"RXWR", 0x5000, 0xF800⟩, by decide, by decide⟩

theorem test_witness_IllegalWords :
    0x7 ≤ ((0x7000#16).extractLsb' 12 4).toNat ∧ ((0x6001#16).extractLsb' 12 4).toNat < 0x7 ∧
      legal 0x5800#16 = false := by decide

theorem test_witness_ByteStreamDecode : ([] : List Byte).length < 2 ∧ [0xFF#8].length < 2 := by decide

theorem test_witness_StepRunsDecodedCommand : decodeWord 0x57A0#16 = .ok (.rxwr 7 0xA0) := by decide

theorem test_witness_IllegalCommandIsRecorded : legal 0x2131#16 = false ∧ busyBlock.illegal = true := by decide

theorem test_witness_ReadSeesEarlierCommands :
    readPort (runWords busyBlock [0x1000#16, 0x2031#16]) 0x1E = some 0xA0 ∧
      readPort (runWords busyBlock [0x1000#16, 0x2031#16]) 0x00 = some 0x8D := by decide

theorem test_witness_StateIsHeldWhileIdle : State.reset.pending = [] := rfl

/-- With it the new byte at the two ends of a response frame: the first payload byte and the high CRC byte (V23, rows 2
and 3). -/
theorem test_witness_NoHazards :
    readPort (commandStep Block.reset 0x20FF#16) 0x00 = some 0xFF ∧
    (let after := runWords verifiedBlock [encode (.rxwr 0 0x01), encode .verify]
     (after.dcalc, after.drecv, after.status) = (0xA41E#16, 0xA035#16, 0x0A#8)) ∧
    (let after := runWords { verifiedBlock with rx := goodFrame.set 7 0x00 } [encode (.rxwr 7 0xA0), encode .verify]
     (after.dcalc, after.drecv, after.status) = (0xA035#16, 0xA035#16, 0x09#8)) := by decide +kernel

theorem test_witness_StaleDataIsShown :
    (∀ w ∈ [0x3400#16, 0x6000#16], decodeWord w ≠ .ok .build) ∧ (∀ w ∈ [0x4000#16], decodeWord w ≠ .ok .verify) ∧
      readPort busyBlock 0x1B = some 0x35 ∧ readPort busyBlock 0x1C = some 0xA0 ∧ legal 0x7000#16 = false := by
  have h1 : decodeWord 0x3400#16 = .error (.fieldSelector 4) := by decide
  have h2 : decodeWord 0x6000#16 = .ok .verify := by decide
  have h3 : decodeWord 0x4000#16 = .ok .build := by decide
  exact ⟨by simp [h1, h2], by simp [h3], by decide⟩

theorem test_witness_NopChangesNothing : (0x0FFF#16).extractLsb' 12 4 = 0x0#4 ∧ 0x0FFF#16 ≠ 0x0000#16 := by decide

theorem test_witness_CrcinitLoadsSeed : (0x1001#16).extractLsb' 12 4 = 0x1#4 ∧ 0x1001#16 ≠ 0x1000#16 := by decide

theorem test_witness_CrcbyteAdvances :
    (0x2F00#16).extractLsb' 12 4 = 0x2#4 ∧ (0x2F00#16).extractLsb' 8 4 ≠ 0#4 ∧
      ({ Block.reset with crcreg := 0x2C95 } : Block).crcreg = 0x2C95#16 := by decide

theorem test_witness_StreamedCrc : ∀ w ∈ [0x2031#16, 0x2131#16, 0x4000#16], decodeWord w ≠ .ok .crcinit := by
  have h1 : decodeWord 0x2031#16 = .ok (.crcbyte 0x31) := by decide
  have h2 : decodeWord 0x2131#16 = .error (.selNotZero 1) := by decide
  have h3 : decodeWord 0x4000#16 = .ok .build := by decide
  simp [h1, h2, h3]

theorem test_witness_CommandFrameLayout :
    ¬((0 ≤ (256 : Int) ∧ (256 : Int) ≤ 255) ∧ (0 ≤ (0 : Int) ∧ (0 : Int) ≤ 255) ∧
      (0 ≤ (0 : Int) ∧ (0 : Int) ≤ 255) ∧ (0 ≤ (0 : Int) ∧ (0 : Int) ≤ 255)) := by decide

theorem test_witness_FldwrWritesField :
    (∃ t, exec (.fldwr .flag 0xFF) { State.reset with block := busyBlock } = .next t) ∧
      (0x3C00#16).extractLsb' 12 4 = 0x3#4 ∧ (0x3C00#16).extractLsb' 10 2 ≠ 0#2 := ⟨⟨_, rfl⟩, by decide, by decide⟩

theorem test_witness_BuildWritesWireImage :
    (0x4FFF#16).extractLsb' 12 4 = 0x4#4 ∧ 0x4FFF#16 ≠ 0x4000#16 ∧
      verifiedBlock.addr = 0x02#8 ∧ verifiedBlock.cmd = 0x3B#8 ∧ verifiedBlock.sub = 0x01#8 ∧
      verifiedBlock.flag = 0x00#8 := by decide

theorem test_witness_WireImageStaysCurrent :
    ∀ w ∈ [0x2031#16, 0x3400#16, 0x6000#16], ∀ f d, decodeWord w ≠ .ok (.fldwr f d) := by
  have h1 : decodeWord 0x2031#16 = .ok (.crcbyte 0x31) := by decide
  have h2 : decodeWord 0x3400#16 = .error (.fieldSelector 4) := by decide
  have h3 : decodeWord 0x6000#16 = .ok .verify := by decide
  simp [h1, h2, h3]

theorem test_witness_VerifyAndStripChecksTail : ([0xFF] : List Byte).length < 2 := by decide

theorem test_witness_RxwrWritesByte :
    (0x5FFF#16).extractLsb' 12 4 = 0x5#4 ∧ (0x5FFF#16).extractLsb' 11 1 = 1#1 := by decide

theorem test_witness_VerifyChecksResponse :
    (0x6FFF#16).extractLsb' 12 4 = 0x6#4 ∧ 0x6FFF#16 ≠ 0x6000#16 ∧ verifiedBlock.rx = goodFrame := by decide

theorem test_witness_ChecksumErrorIsRecorded :
    (crc16 corruptedBlock.payload).toNat ≠ corruptedBlock.rx[7].toNat * 256 + corruptedBlock.rx[6].toNat ∧
      ∃ t, exec .verify { State.reset with block := corruptedBlock } = .next t := ⟨by decide +kernel, _, rfl⟩

theorem test_witness_PayloadIsVerifiedData :
    (∀ w ∈ [0x2031#16, 0x4000#16], decodeWord w ≠ .ok .verify ∧ ∀ k d, decodeWord w ≠ .ok (.rxwr k d)) ∧
      (commandStep verifiedBlock 0x6000#16).valid = true := by
  have h1 : decodeWord 0x2031#16 = .ok (.crcbyte 0x31) := by decide
  have h2 : decodeWord 0x4000#16 = .ok .build := by decide
  refine ⟨by simp [h1, h2], by decide +kernel⟩

theorem test_witness_CheckAgreesWithFunction :
    verifyAndStrip goodFrame.toList = .ok [0x00, 0x06, 0x43, 0x66, 0x80, 0x00] ∧
      verifyAndStrip corruptedBlock.rx.toList =
        .error (.checksum [0x01, 0x06, 0x43, 0x66, 0x80, 0x00, 0x35, 0xA0] [0x1E, 0xA4] [0x35, 0xA0]) := by
  decide +kernel

theorem test_witness_RoundTripLaw :
    [0x00#8, 0x06#8, 0x43#8, 0x66#8, 0x80#8, 0x00#8].length = 6 ∧
      goodFrame.toList =
        [0x00, 0x06, 0x43, 0x66, 0x80, 0x00] ++ wordToBytes (crc16 [0x00, 0x06, 0x43, 0x66, 0x80, 0x00]) := by
  decide +kernel

/-- V25: the first and the last bit of a frame that checks. -/
theorem test_witness_SingleBitFlipIsDetected :
    verifyAndStrip goodFrame.toList = .ok [0x00, 0x06, 0x43, 0x66, 0x80, 0x00] ∧
      0 < 8 * goodFrame.toList.length ∧ 63 < 8 * goodFrame.toList.length ∧
      flipBit goodFrame.toList 63 = [0x00, 0x06, 0x43, 0x66, 0x80, 0x00, 0x35, 0x20] := by decide +kernel

theorem test_witness_UpToThreeBitErrorsAreDetected :
    bitWeight [0x01, 0, 0, 0, 0, 0, 0, 0] = 1 ∧ bitWeight [0x81, 0, 0, 0, 0, 0, 0, 0x80] = 3 ∧
      [0x81, 0x06, 0x43, 0x66, 0x80, 0x00, 0x35, 0x20] =
        xorBytes goodFrame.toList [0x81, 0, 0, 0, 0, 0, 0, 0x80] ∧
      (runWords Block.reset (checkWords goodFrame)).valid = true := by decide +kernel

theorem test_witness_FourBitErrorPasses :
    (#v[0x11, 0x0E, 0x42, 0x66, 0x80, 0x00, 0x35, 0xA0] : Vector Byte 8).toList =
      xorBytes goodFrame.toList [0x11, 0x08, 0x01, 0, 0, 0, 0, 0] := by decide

theorem test_witness_ReadMap :
    0x1F ≤ (0x1F#8 : ReadIndex).toNat ∧ 0x1F ≤ (0xFF#8 : ReadIndex).toNat ∧
      Block.reset.crcreg = crcRaw 0xFFFF#16 [] := by decide

theorem test_witness_ReadsChangeNothing :
    readPort busyBlock 0x00 = some 0x34 ∧ readPort busyBlock 0x1E = some 0xA0 ∧ readPort busyBlock 0x1F = none := by
  decide

theorem test_witness_RegistersHaveTheirWriters :
    ∃ s t : State, step s = .next t ∧ s.nextIsReset = false ∧ t.block.crcreg ≠ s.block.crcreg :=
  ⟨presenting busyBlock 0x1000, _, rfl, by decide, by decide⟩

/-- One change of each bit of STATUS: VALID up and down, CHKERR up and down, ILLEGAL up and down, TXRDY up and down. -/
theorem test_witness_StatusBitsSetAndCleared :
    ((nextBlock (step (presenting { verifiedBlock with status := 0x08 } 0x6000))).map (·.status) = some 0x09 ∧
      (nextBlock (step (presenting verifiedBlock 0x57A0))).map (·.status) = some 0x08) ∧
    ((nextBlock (step (presenting { corruptedBlock with status := 0x08 } 0x6000))).map (·.status) = some 0x0A ∧
      (nextBlock (step (presenting corruptedBlock 0x5001))).map (·.status) = some 0x08) ∧
    ((nextBlock (step (presenting verifiedBlock 0x7000))).map (·.status) = some 0x0D ∧
      (nextBlock (step { State.reset with block := busyBlock, pending := [.reset none] })).map (·.status) = some 0x00) ∧
    ((nextBlock (step (presenting Block.reset 0x4000))).map (·.status) = some 0x08 ∧
      (nextBlock (step (presenting verifiedBlock 0x3002))).map (·.status) = some 0x01) := by decide +kernel

theorem test_witness_ErrorCodesAndBits : ErrorKind.checksum ≠ .format ∧ ErrorKind.illegalCommand ≠ .format := by decide

theorem test_witness_AtMostOneErrorPerCommand :
    legal 0x6001#16 = false ∧ legal 0x6000#16 = true ∧ 0x6001#16 ≠ 0x6000#16 ∧
      (commandStep corruptedBlock 0x6001#16).chkerr = true := by decide +kernel

theorem test_witness_PartsDoNotInterfere :
    busyBlock.crcreg = { verifiedBlock with crcreg := 0x1234 }.crcreg ∧
      ((∀ f, Block.field f verifiedBlock = Block.field f corruptedBlock) ∧ verifiedBlock.tx = corruptedBlock.tx ∧
        verifiedBlock.txrdy = corruptedBlock.txrdy) ∧
      (let other := { corruptedBlock with crcreg := 0x0000, addr := 0x07, status := 0x06 }
       corruptedBlock.rx = other.rx ∧ corruptedBlock.dcalc = other.dcalc ∧ corruptedBlock.drecv = other.drecv ∧
        corruptedBlock.valid = other.valid ∧ corruptedBlock.chkerr = other.chkerr) := by
  refine ⟨by decide, ⟨?_, by decide, by decide⟩, by decide⟩
  intro f; cases f <;> rfl

theorem test_witness_CommandsAreIdempotent : ∀ d, decodeWord 0x6000#16 ≠ .ok (.crcbyte d) := by
  have h : decodeWord 0x6000#16 = .ok .verify := by decide
  simp [h]

theorem test_witness_AssemblerNeverTruncates :
    (AsmCmd.rxwr 7 255).wf = true ∧ AsmCmd.assemble (.rxwr 7 255) = .ok 0x57FF ∧
      ¬((0 ≤ (0 : Int) ∧ (0 : Int) ≤ 255) ∧ (0 ≤ (0 : Int) ∧ (0 : Int) ≤ 255) ∧
        (0 ≤ (0 : Int) ∧ (0 : Int) ≤ 255) ∧ (0 ≤ (-1 : Int) ∧ (-1 : Int) ≤ 255)) := by decide

end Sys2Proof.Tests
end

section
/-! PROOF. What a command word does to the block, in terms of the command it decodes to (30_encoding.md R60 to R66,
43_host.md R146, R147). -/

namespace Sys2Proof

/-! ## Legality is decodability -/

/-- A word is its opcode, its selector and its data byte (R60). -/
theorem word_ext_fields {v w : CmdWord} (hop : opOf v = opOf w) (hsel : selOf v = selOf w)
    (hdata : dataOf v = dataOf w) : v = w := by
  refine word_ext_bytes hdata (BitVec.eq_of_getLsbD_eq fun k hk => ?_)
  have hop' := congrArg (BitVec.getLsbD · (k - 4)) hop
  have hsel' := congrArg (BitVec.getLsbD · k) hsel
  simp only [opOf, selOf, highByte, BitVec.getLsbD_extractLsb'] at *
  by_cases hk4 : k < 4
  · simpa [hk, hk4] using hsel'
  · have hk' : 12 + (k - 4) = 8 + k := by omega
    simpa [hk, hk', show k - 4 < 4 by omega] using hop'

/-- A masked compare is made field by field (R62). -/
theorem and_eq_iff_fields (w mask pattern : CmdWord) :
    w &&& mask = pattern ↔
      opOf w &&& opOf mask = opOf pattern ∧ selOf w &&& selOf mask = selOf pattern ∧
        dataOf w &&& dataOf mask = dataOf pattern := by
  simp only [opOf, selOf, dataOf, ← BitVec.extractLsb'_and]
  exact ⟨fun h => by simp [h], fun ⟨hop, hsel, hdata⟩ => word_ext_fields hop hsel hdata⟩

/-- FLDWR's reserved bits are zero when SEL[3:2] is (R61, R66). -/
theorem fieldReserved_eq_zero_iff (w : CmdWord) : w.extractLsb' 10 2 = 0#2 ↔ selOf w &&& 0xC#4 = 0#4 := by
  have hslice : w.extractLsb' 10 2 = (selOf w).extractLsb' 2 2 := by
    ext k hk
    simp [selOf, show 2 + k < 4 by omega, show 8 + (2 + k) = 10 + k by omega]
  rw [hslice]
  exact (by decide : ∀ sel : BitVec 4, sel.extractLsb' 2 2 = 0#2 ↔ sel &&& 0xC#4 = 0#4) _

/-- RXWR's reserved bit is zero when SEL[3] is (R61, R66). -/
theorem rxReserved_eq_zero_iff (w : CmdWord) : w.extractLsb' 11 1 = 0#1 ↔ selOf w &&& 0x8#4 = 0#4 := by
  have hslice : w.extractLsb' 11 1 = (selOf w).extractLsb' 3 1 := by
    ext k hk
    simp [selOf, show 3 + k < 4 by omega, show 8 + (3 + k) = 11 + k by omega]
  rw [hslice]
  exact (by decide : ∀ sel : BitVec 4, sel.extractLsb' 3 1 = 0#1 ↔ sel &&& 0x8#4 = 0#4) _

/-- Legality in the fields of the word (R64). -/
theorem legal_iff_fields (w : CmdWord) :
    legal w = true ↔
      (opOf w = 0x0#4 ∧ selOf w = 0#4 ∧ dataOf w = 0#8) ∨ (opOf w = 0x1#4 ∧ selOf w = 0#4 ∧ dataOf w = 0#8) ∨
      (opOf w = 0x2#4 ∧ selOf w = 0#4) ∨ (opOf w = 0x3#4 ∧ w.extractLsb' 10 2 = 0#2) ∨
      (opOf w = 0x4#4 ∧ selOf w = 0#4 ∧ dataOf w = 0#8) ∨ (opOf w = 0x5#4 ∧ w.extractLsb' 11 1 = 0#1) ∨
      (opOf w = 0x6#4 ∧ selOf w = 0#4 ∧ dataOf w = 0#8) := by
  have hop (x : BitVec 4) : x &&& 0xF#4 = x := BitVec.and_allOnes
  have hdata (x : Byte) : x &&& 0xFF#8 = x := BitVec.and_allOnes
  simp only [legal, opRows, OpRow.selects, List.any_cons, List.any_nil, Bool.or_eq_true, beq_iff_eq,
    and_eq_iff_fields, fieldReserved_eq_zero_iff, rxReserved_eq_zero_iff, Bool.or_false]
  simp [opOf, selOf, dataOf, hop, hdata]

/-- A command without operands decodes exactly when SEL and DATA are zero (R66). -/
theorem withoutOperands_eq_ok_iff {i j : Instr} {w : CmdWord} :
    withoutOperands i w = .ok j ↔ i = j ∧ selOf w = 0#4 ∧ dataOf w = 0#8 := by
  unfold withoutOperands
  split_ifs <;> simp_all

/-- A word that decodes is legal (R64, R66). -/
theorem legal_of_decodeWord_ok {w : CmdWord} {i : Instr} (h : decodeWord w = .ok i) : legal w = true := by
  rw [legal_iff_fields]
  unfold decodeWord at h
  split at h <;> rename_i hop
  case h_1 | h_2 | h_5 | h_7 =>
    obtain ⟨-, hop⟩ := BitVec.toNat_eq_nat.1 hop
    obtain ⟨-, hsel, hdata⟩ := withoutOperands_eq_ok_iff.1 h
    simp [hop, hsel, hdata]
  case h_3 | h_4 | h_6 =>
    obtain ⟨-, hop⟩ := BitVec.toNat_eq_nat.1 hop
    split at h
    · cases h
    · simp_all
  case h_8 => cases h

namespace Machine

/-- A legal word decodes, and the spec's step over it is what its command does (R146). -/
theorem decodes_of_legal {w : CmdWord} (h : legal w = true) :
    ∃ i, decodeWord w = .ok i ∧ ∀ b, commandStep b w = blockAfter i b := by
  obtain ⟨hop, hsel, hdata⟩ | ⟨hop, hsel, hdata⟩ | ⟨hop, hsel⟩ | ⟨hop, hsel⟩ | ⟨hop, hsel, hdata⟩ | ⟨hop, hsel⟩ |
    ⟨hop, hsel, hdata⟩ := (legal_iff_fields w).1 h
  · exact ⟨.nop, by simp [decodeWord, withoutOperands, *], fun b => by simp [commandStep, blockAfter, *]⟩
  · exact ⟨.crcinit, by simp [decodeWord, withoutOperands, *], fun b => by simp [commandStep, blockAfter, *]⟩
  · exact ⟨.crcbyte (dataOf w), by simp [decodeWord, *], fun b => by simp [commandStep, blockAfter, *]⟩
  · exact ⟨.fldwr (fieldOf w) (dataOf w), by simp [decodeWord, *], fun b => by simp [commandStep, blockAfter, *]⟩
  · exact ⟨.build, by simp [decodeWord, withoutOperands, *], fun b => by simp [commandStep, blockAfter, *]⟩
  · exact ⟨.rxwr (rxIndexOf w) (dataOf w), by simp [decodeWord, *], fun b => by simp [commandStep, blockAfter, *]⟩
  · exact ⟨.verify, by simp [decodeWord, withoutOperands, *], fun b => by simp [commandStep, blockAfter, *]⟩

/-- The spec's step over a word that decodes is what its command does (R146). -/
theorem commandStep_of_ok {w : CmdWord} {i : Instr} (h : decodeWord w = .ok i) (b : Block) :
    commandStep b w = blockAfter i b := by
  obtain ⟨j, hj, hstep⟩ := decodes_of_legal (legal_of_decodeWord_ok h)
  rw [hstep, Except.ok.inj (h.symm.trans hj)]

/-- A word the decoder rejects is illegal (R66). -/
theorem legal_eq_false_of_error {w : CmdWord} {e : DecodeReject} (h : decodeWord w = .error e) : legal w = false := by
  rw [Bool.eq_false_iff]
  intro hl
  obtain ⟨i, hi, -⟩ := decodes_of_legal hl
  cases h.symm.trans hi

/-- The spec's step over an illegal word sets ILLEGAL and nothing else (R147). -/
theorem commandStep_of_illegal {w : CmdWord} (h : legal w = false) (b : Block) : commandStep b w = b.raise .illegal := by
  simp [commandStep, h]

/-- Every word is a legal command or an illegal word, whatever block it meets (R66, R146). -/
theorem commandStep_cases (w : CmdWord) :
    (legal w = true ∧ ∃ i, decodeWord w = .ok i ∧ ∀ b, commandStep b w = blockAfter i b) ∨
    (legal w = false ∧ ∀ b, commandStep b w = b.raise .illegal) := by
  cases hl : legal w with
  | true => exact .inl ⟨rfl, decodes_of_legal hl⟩
  | false => exact .inr ⟨rfl, commandStep_of_illegal hl⟩

/-! ## Relations kept by every word are kept by every run -/

/-- A relation of blocks that every command and the recording of an illegal word keep, when one word meets both blocks,
is kept by any list of words (R148). -/
theorem runWords_keeps {R : Block → Block → Prop} (hcmd : ∀ i b b', R b b' → R (blockAfter i b) (blockAfter i b'))
    (hillegal : ∀ b b', R b b' → R (b.raise .illegal) (b'.raise .illegal)) (ws : List CmdWord) {b b' : Block}
    (h : R b b') : R (runWords b ws) (runWords b' ws) := by
  induction ws generalizing b b' with
  | nil => exact h
  | cons w ws ih =>
    refine ih ?_
    obtain ⟨-, i, -, hstep⟩ | ⟨-, hstep⟩ := commandStep_cases w <;> rw [hstep, hstep]
    · exact hcmd i b b' h
    · exact hillegal b b' h

/-! ## One step, seen from the block -/

/-- Everything a step can do to the block: hold it (nothing pending, or a read), run the command presented, record an
illegal word, or reset (R145 to R147, R180). -/
theorem step_block_cases {s t : State} (h : step s = .next t) :
    t.block = s.block ∨ (∃ i, s.nextInstr = some i ∧ t.block = blockAfter i s.block) ∨
    (s.nextIsIllegal = true ∧ t.block = s.block.raise .illegal) ∨
    (s.nextIsReset = true ∧ t.block = Block.reset) := by
  obtain ⟨-, rfl⟩ | ⟨w, i, rest, hp, hd, rfl⟩ | ⟨w, e, rest, hp, hd, rfl⟩ | ⟨i, rest, -, rfl⟩ | ⟨p, rest, hp, rfl⟩ :=
    step_cases h
  · exact .inl rfl
  · exact .inr (.inl ⟨i, by simp [State.nextInstr, hp, hd, Except.toOption], rfl⟩)
  · exact .inr (.inr (.inl ⟨by simp [State.nextIsIllegal, hp, legal_eq_false_of_error hd], rfl⟩))
  · exact .inl (answerRead_block _ _)
  · exact .inr (.inr (.inr ⟨by simp [State.nextIsReset, hp], rfl⟩))

end Machine

end Sys2Proof
end

section
/-! PROOF. The three parts of the block (10_state.md R22): the CRC register, the frame builder's registers and flag, the
response check's registers and flags. What each command does to each part, said once (40_crc.md R86, R87; 41_frame.md
R104, R105; 42_verify.md R126, R127). -/

namespace Sys2Proof.Machine

/-- What the frame builder holds: the four field registers, TX and TXRDY (R25, R26, R28). -/
@[ext] structure FramePart where
  field : FieldReg → Byte
  tx : Vector Byte 10
  txrdy : Bool

/-- What the response check holds: RX, the diagnostics and the two verdict flags (R27, R28, R29). -/
@[ext] structure ResponsePart where
  rx : Vector Byte 8
  dcalc : Word
  drecv : Word
  valid : Bool
  chkerr : Bool

/-- The frame builder's part of a block. -/
def Block.framePart (b : Block) : FramePart := ⟨fun f => b.field f, b.tx, b.txrdy⟩

/-- The response check's part of a block. -/
def Block.responsePart (b : Block) : ResponsePart := ⟨b.rx, b.dcalc, b.drecv, b.valid, b.chkerr⟩

theorem Block.framePart_eq_iff {b b' : Block} :
    b.framePart = b'.framePart ↔ (∀ f, b.field f = b'.field f) ∧ b.tx = b'.tx ∧ b.txrdy = b'.txrdy := by
  simp [Block.framePart, funext_iff]

theorem Block.responsePart_eq_iff {b b' : Block} :
    b.responsePart = b'.responsePart ↔
      b.rx = b'.rx ∧ b.dcalc = b'.dcalc ∧ b.drecv = b'.drecv ∧ b.valid = b'.valid ∧ b.chkerr = b'.chkerr := by
  simp [Block.responsePart]

/-! ## Register and flag writes outside a part leave it -/

@[simp] theorem Block.setCrcreg_framePart (v : Word) (b : Block) : (b.setCrcreg v).framePart = b.framePart := by
  simp [Block.framePart, Block.txrdy]

@[simp] theorem Block.setRx_framePart (k : Fin 8) (d : Byte) (b : Block) : (b.setRx k d).framePart = b.framePart := by
  simp [Block.framePart, Block.txrdy]

@[simp] theorem Block.setDiagnostics_framePart (c r : Word) (b : Block) :
    (b.setDiagnostics c r).framePart = b.framePart := by
  simp [Block.framePart, Block.txrdy]

@[simp] theorem Block.raise_framePart {k : StatusBit} (hk : k ≠ .txrdy) (b : Block) :
    (b.raise k).framePart = b.framePart := by
  simp [Block.framePart, Block.txrdy, hk.symm]

@[simp] theorem Block.lower_framePart {k : StatusBit} (hk : k ≠ .txrdy) (b : Block) :
    (b.lower k).framePart = b.framePart := by
  simp [Block.framePart, Block.txrdy, hk.symm]

@[simp] theorem Block.setCrcreg_responsePart (v : Word) (b : Block) :
    (b.setCrcreg v).responsePart = b.responsePart := rfl

@[simp] theorem Block.setField_responsePart (f : FieldReg) (d : Byte) (b : Block) :
    (b.setField f d).responsePart = b.responsePart := by
  cases f <;> rfl

@[simp] theorem Block.setTx_responsePart (t : Vector Byte 10) (b : Block) :
    (b.setTx t).responsePart = b.responsePart := rfl

@[simp] theorem Block.raise_responsePart {k : StatusBit} (hv : k ≠ .valid) (hc : k ≠ .chkerr) (b : Block) :
    (b.raise k).responsePart = b.responsePart := by
  simp [Block.responsePart, Block.valid, Block.chkerr, hv.symm, hc.symm]

@[simp] theorem Block.lower_responsePart {k : StatusBit} (hv : k ≠ .valid) (hc : k ≠ .chkerr) (b : Block) :
    (b.lower k).responsePart = b.responsePart := by
  simp [Block.responsePart, Block.valid, Block.chkerr, hv.symm, hc.symm]

/-! ## What the commands of a part do to it -/

/-- FLDWR writes one field and lowers TXRDY (R104). -/
theorem Block.fldwr_framePart (f : FieldReg) (d : Byte) (b : Block) :
    (b.fldwr f d).framePart = ⟨fun g => if g = f then d else b.field g, b.tx, false⟩ := by
  simp [Block.framePart, Block.txrdy]

/-- BUILD writes TX from the fields and raises TXRDY (R105). -/
theorem Block.build_framePart (b : Block) :
    b.build.framePart =
      ⟨fun f => b.field f, txImage (b.field .addr) (b.field .cmd) (b.field .sub) (b.field .flag), true⟩ := by
  simp [Block.framePart, Block.txrdy, Block.field]

/-- RXWR writes one byte of RX and withdraws the verdict (R126). -/
theorem Block.rxwr_responsePart (k : Fin 8) (d : Byte) (b : Block) :
    (b.rxwr k d).responsePart = ⟨b.rx.set k.val d k.isLt, b.dcalc, b.drecv, false, false⟩ := by
  simp [Block.responsePart, Block.valid, Block.chkerr]

/-- VERIFY writes the diagnostics and the verdict, which is whether they agree (R127). -/
theorem Block.verify_responsePart (b : Block) :
    b.verify.responsePart =
      ⟨b.rx, crc16 b.payload, b.received, decide (crc16 b.payload = b.received),
        decide (crc16 b.payload ≠ b.received)⟩ := by
  rw [Block.verify_eq]
  split <;> simp_all [Block.responsePart, Block.valid, Block.chkerr]

/-- VERIFY leaves the frame builder's part (D9). -/
@[simp] theorem Block.verify_framePart (b : Block) : b.verify.framePart = b.framePart := by
  rw [Block.verify_eq]
  split <;> simp

/-- VERIFY leaves CRCREG (D9). -/
@[simp] theorem Block.verify_crcreg (b : Block) : b.verify.crcreg = b.crcreg := by
  rw [Block.verify_eq]
  split <;> rfl

/-! ## Each part has its own commands -/

/-- Only CRCINIT and CRCBYTE act on CRCREG (R23). -/
theorem blockAfter_crcreg_cases (i : Instr) :
    i = .crcinit ∨ (∃ d, i = .crcbyte d) ∨ ∀ b, (blockAfter i b).crcreg = b.crcreg := by
  cases i with
  | crcinit => exact .inl rfl
  | crcbyte d => exact .inr (.inl ⟨d, rfl⟩)
  | nop | fldwr _ _ | build | rxwr _ _ | verify => exact .inr (.inr fun b => by simp [blockAfter])

/-- Only FLDWR and BUILD act on the frame builder's part (R25, R26). -/
theorem blockAfter_framePart_cases (i : Instr) :
    (∃ f d, i = .fldwr f d) ∨ i = .build ∨ ∀ b, (blockAfter i b).framePart = b.framePart := by
  cases i with
  | fldwr f d => exact .inl ⟨f, d, rfl⟩
  | build => exact .inr (.inl rfl)
  | nop | crcinit | crcbyte _ | rxwr _ _ | verify => exact .inr (.inr fun b => by simp [blockAfter])

/-- Only RXWR and VERIFY act on the response check's part (R27, R29). -/
theorem blockAfter_responsePart_cases (i : Instr) :
    (∃ k d, i = .rxwr k d) ∨ i = .verify ∨ ∀ b, (blockAfter i b).responsePart = b.responsePart := by
  cases i with
  | rxwr k d => exact .inl ⟨k, d, rfl⟩
  | verify => exact .inr (.inl rfl)
  | nop | crcinit | crcbyte _ | fldwr _ _ | build => exact .inr (.inr fun b => by simp [blockAfter])

/-- No command writes ILLEGAL: only an illegal word and reset do (R28). -/
@[simp] theorem blockAfter_illegal (i : Instr) (b : Block) : (blockAfter i b).illegal = b.illegal := by
  cases i with
  | verify =>
    rw [blockAfter, Block.verify_eq]
    split <;> simp [Block.illegal]
  | nop | crcinit | crcbyte _ | fldwr _ _ | build | rxwr _ _ => simp [blockAfter, Block.illegal]

/-- No command writes STATUS[7:4] (R28). -/
@[simp] theorem blockAfter_reserved (i : Instr) (b : Block) :
    (blockAfter i b).status.extractLsb' 4 4 = b.status.extractLsb' 4 4 := by
  cases i with
  | verify =>
    rw [blockAfter, Block.verify_eq]
    split <;> simp
  | nop | crcinit | crcbyte _ | fldwr _ _ | build | rxwr _ _ => simp [blockAfter]

end Sys2Proof.Machine
end

section
/-! PROOF. O53: the invariant of the block, part by part. -/

namespace Sys2Proof.Machine

/-- The invariant's clauses about the frame builder's part. -/
structure Block.FrameOk (b : Block) : Prop where
  txCurrent : b.txrdy = true → b.tx.toList = wireFrame b.addr b.cmd b.sub b.flag
  txBuilt : b.tx = Vector.replicate 10 0x00#8 ∨ ∃ a c s f, b.tx.toList = wireFrame a c s f
  padZero : b.tx[4] = 0x00#8 ∧ b.tx[5] = 0x00#8 ∧ b.tx[6] = 0x00#8 ∧ b.tx[7] = 0x00#8

/-- The invariant's clauses about the response check's part. -/
structure Block.VerdictOk (b : Block) : Prop where
  notBoth : ¬(b.valid = true ∧ b.chkerr = true)
  verdictCurrent : b.valid = true ∨ b.chkerr = true → b.dcalc = crc16 b.payload ∧ b.drecv = b.received
  validAgrees : b.valid = true → b.dcalc = b.drecv
  chkerrDiffers : b.chkerr = true → b.dcalc ≠ b.drecv

theorem Block.inv_iff (b : Block) : b.Inv ↔ b.status.extractLsb' 4 4 = 0#4 ∧ b.FrameOk ∧ b.VerdictOk :=
  ⟨fun h => ⟨h.reservedZero, ⟨h.txCurrent, h.txBuilt, h.padZero⟩,
      ⟨h.notBoth, h.verdictCurrent, h.validAgrees, h.chkerrDiffers⟩⟩,
    fun ⟨hres, hf, hv⟩ => ⟨hres, hv.notBoth, hf.txCurrent, hf.txBuilt, hf.padZero, hv.verdictCurrent, hv.validAgrees,
      hv.chkerrDiffers⟩⟩

/-- The clauses about the frame builder depend on its part alone. -/
theorem Block.FrameOk.of_framePart_eq {b b' : Block} (h : b'.framePart = b.framePart) (hb : b.FrameOk) :
    b'.FrameOk := by
  obtain ⟨hfield, htx, hrdy⟩ := Block.framePart_eq_iff.1 h
  obtain ⟨hcurrent, hbuilt, hpad⟩ := hb
  constructor
  · rw [htx, hrdy, show b'.addr = b.addr from hfield .addr, show b'.cmd = b.cmd from hfield .cmd,
      show b'.sub = b.sub from hfield .sub, show b'.flag = b.flag from hfield .flag]
    exact hcurrent
  · exact htx ▸ hbuilt
  · simpa only [htx] using hpad

/-- The clauses about the response check depend on its part alone. -/
theorem Block.VerdictOk.of_responsePart_eq {b b' : Block} (h : b'.responsePart = b.responsePart) (hb : b.VerdictOk) :
    b'.VerdictOk := by
  obtain ⟨hrx, hcalc, hrecv, hvalid, hchkerr⟩ := Block.responsePart_eq_iff.1 h
  obtain ⟨hpayload, hreceived⟩ := Block.views_of_rx hrx
  obtain ⟨hboth, hcurrent, hagree, hdiffer⟩ := hb
  constructor <;> simpa only [hcalc, hrecv, hvalid, hchkerr, hpayload, hreceived]

/-! ## The commands that act on a part -/

/-- After FLDWR nothing is claimed of the fields, since TXRDY is 0, and TX is as it was (R104). -/
theorem Block.FrameOk.fldwr {b : Block} (h : b.FrameOk) (f : FieldReg) (d : Byte) : (b.fldwr f d).FrameOk := by
  have hpart := b.fldwr_framePart f d
  have htx : (b.fldwr f d).tx = b.tx := congrArg FramePart.tx hpart
  have hrdy : (b.fldwr f d).txrdy = false := congrArg FramePart.txrdy hpart
  exact ⟨fun hr => absurd (hrdy.symm.trans hr) Bool.false_ne_true, htx ▸ h.txBuilt, by simpa only [htx] using h.padZero⟩

/-- The pad bytes of a wire image are zero (R100, R108). -/
theorem txImage_padZero (a c s f : Byte) :
    (txImage a c s f)[4] = 0x00#8 ∧ (txImage a c s f)[5] = 0x00#8 ∧ (txImage a c s f)[6] = 0x00#8 ∧
      (txImage a c s f)[7] = 0x00#8 :=
  ⟨rfl, rfl, rfl, rfl⟩

/-- BUILD makes TX current, whatever was there (R105). -/
theorem Block.frameOk_build (b : Block) : b.build.FrameOk where
  txCurrent _ := rfl
  txBuilt := .inr ⟨b.addr, b.cmd, b.sub, b.flag, rfl⟩
  padZero := txImage_padZero b.addr b.cmd b.sub b.flag

/-- With no verdict standing, the clauses about the response check hold. -/
theorem Block.VerdictOk.of_no_verdict {b : Block} (hvalid : b.valid = false) (hchkerr : b.chkerr = false) :
    b.VerdictOk := by
  constructor <;> simp [hvalid, hchkerr]

/-- RXWR withdraws the verdict (R126). -/
theorem Block.verdictOk_rxwr (b : Block) (k : Fin 8) (d : Byte) : (b.rxwr k d).VerdictOk :=
  have hpart := b.rxwr_responsePart k d
  .of_no_verdict (congrArg ResponsePart.valid hpart) (congrArg ResponsePart.chkerr hpart)

/-- VERIFY makes the verdict current, whatever was there (R127). -/
theorem Block.verdictOk_verify (b : Block) : b.verify.VerdictOk := by
  have hpart := b.verify_responsePart
  have hcalc : b.verify.dcalc = crc16 b.payload := congrArg ResponsePart.dcalc hpart
  have hrecv : b.verify.drecv = b.received := congrArg ResponsePart.drecv hpart
  have hvalid : b.verify.valid = decide (crc16 b.payload = b.received) := congrArg ResponsePart.valid hpart
  have hchkerr : b.verify.chkerr = decide (crc16 b.payload ≠ b.received) := congrArg ResponsePart.chkerr hpart
  obtain ⟨hpayload, hreceived⟩ := Block.views_of_rx (congrArg ResponsePart.rx hpart : b.verify.rx = b.rx)
  constructor <;> simp [hcalc, hrecv, hvalid, hchkerr, hpayload, hreceived]

/-! ## Every step keeps the invariant -/

theorem Block.FrameOk.blockAfter {b : Block} (h : b.FrameOk) (i : Instr) : (blockAfter i b).FrameOk := by
  obtain ⟨f, d, rfl⟩ | rfl | hpart := blockAfter_framePart_cases i
  · exact h.fldwr f d
  · exact b.frameOk_build
  · exact h.of_framePart_eq (hpart b)

theorem Block.VerdictOk.blockAfter {b : Block} (h : b.VerdictOk) (i : Instr) : (blockAfter i b).VerdictOk := by
  obtain ⟨k, d, rfl⟩ | rfl | hpart := blockAfter_responsePart_cases i
  · exact b.verdictOk_rxwr k d
  · exact b.verdictOk_verify
  · exact h.of_responsePart_eq (hpart b)

/-- Every command keeps the invariant of the block. -/
theorem Block.Inv.blockAfter {b : Block} (h : b.Inv) (i : Instr) : (blockAfter i b).Inv := by
  obtain ⟨hres, hframe, hverdict⟩ := (Block.inv_iff b).1 h
  exact (Block.inv_iff _).2 ⟨by simpa using hres, hframe.blockAfter i, hverdict.blockAfter i⟩

/-- An illegal word keeps the invariant of the block (R147). -/
theorem Block.Inv.raise_illegal {b : Block} (h : b.Inv) : (b.raise .illegal).Inv := by
  obtain ⟨hres, hframe, hverdict⟩ := (Block.inv_iff b).1 h
  exact (Block.inv_iff _).2
    ⟨by simpa using hres, hframe.of_framePart_eq (by simp), hverdict.of_responsePart_eq (by simp)⟩

/-- The block meets its invariant at reset (R180). -/
theorem Block.inv_reset : Block.reset.Inv :=
  (Block.inv_iff _).2
    ⟨by decide, ⟨fun h => absurd h (by decide), .inl rfl, by decide⟩, .of_no_verdict rfl rfl⟩

/-- Settles O53: each part's clauses are kept by the commands of that part and depend on that part alone. -/
theorem invariantKeptByStep : Obligations.InvariantKeptByStep := by
  intro s t hs hstep
  show t.block.Inv
  obtain heq | ⟨i, -, heq⟩ | ⟨-, heq⟩ | ⟨-, heq⟩ := step_block_cases hstep <;> rw [heq]
  · exact hs
  · exact Block.Inv.blockAfter hs i
  · exact Block.Inv.raise_illegal hs
  · exact Block.inv_reset

end Sys2Proof.Machine
end

section
/-! PROOF. O54, O47, O48, O49: what may change each register and each bit of STATUS, and what it may depend on. -/

namespace Sys2Proof.Machine

/-! ## The parts do not interfere (O54) -/

/-- What a command leaves in CRCREG depends on CRCREG alone (D9, R23). -/
theorem blockAfter_crcreg_congr (i : Instr) (b b' : Block) (h : b.crcreg = b'.crcreg) :
    (blockAfter i b).crcreg = (blockAfter i b').crcreg := by
  obtain rfl | ⟨d, rfl⟩ | hsame := blockAfter_crcreg_cases i
  · rfl
  · simp [blockAfter, h]
  · rw [hsame, hsame, h]

/-- What a command leaves in the frame builder's part depends on that part alone. -/
theorem blockAfter_framePart_congr (i : Instr) (b b' : Block) (h : b.framePart = b'.framePart) :
    (blockAfter i b).framePart = (blockAfter i b').framePart := by
  obtain ⟨hfield, htx, -⟩ := Block.framePart_eq_iff.1 h
  obtain ⟨f, d, rfl⟩ | rfl | hsame := blockAfter_framePart_cases i
  · simp only [blockAfter, Block.fldwr_framePart, hfield, htx]
  · simp only [blockAfter, Block.build_framePart, hfield]
  · rw [hsame, hsame, h]

/-- What a command leaves in the response check's part depends on that part alone. -/
theorem blockAfter_responsePart_congr (i : Instr) (b b' : Block) (h : b.responsePart = b'.responsePart) :
    (blockAfter i b).responsePart = (blockAfter i b').responsePart := by
  obtain ⟨hrx, hcalc, hrecv, -⟩ := Block.responsePart_eq_iff.1 h
  obtain ⟨hpayload, hreceived⟩ := Block.views_of_rx hrx
  obtain ⟨k, d, rfl⟩ | rfl | hsame := blockAfter_responsePart_cases i
  · simp only [blockAfter, Block.rxwr_responsePart, hrx, hcalc, hrecv]
  · simp only [blockAfter, Block.verify_responsePart, hrx, hpayload, hreceived]
  · rw [hsame, hsame, h]

/-- Settles O54: agreement on a part is a relation that every word keeps, so every run keeps it. -/
theorem partsDoNotInterfere : Obligations.PartsDoNotInterfere := by
  intro b b' ws
  refine ⟨fun h => ?_, fun hfield htx hrdy => ?_, fun hrx hcalc hrecv hvalid hchkerr => ?_⟩
  · exact runWords_keeps (R := fun x y => x.crcreg = y.crcreg) blockAfter_crcreg_congr (fun _ _ h => h) ws h
  · exact Block.framePart_eq_iff.1 <|
      runWords_keeps (R := fun x y => x.framePart = y.framePart) blockAfter_framePart_congr (by simp) ws
        (Block.framePart_eq_iff.2 ⟨hfield, htx, hrdy⟩)
  · exact Block.responsePart_eq_iff.1 <|
      runWords_keeps (R := fun x y => x.responsePart = y.responsePart) blockAfter_responsePart_congr (by simp) ws
        (Block.responsePart_eq_iff.2 ⟨hrx, hcalc, hrecv, hvalid, hchkerr⟩)

/-! ## Each register has its writers (O47) -/

/-- In a step without reset, what the recording of an illegal word leaves changes only under a command. -/
theorem exists_instr_of_step_ne {α : Type} (v : Block → α) (hv : ∀ b, v (b.raise .illegal) = v b) {s t : State}
    (h : step s = .next t) (hr : s.nextIsReset = false) (hne : v t.block ≠ v s.block) :
    ∃ i, s.nextInstr = some i ∧ v (blockAfter i s.block) ≠ v s.block := by
  obtain heq | ⟨i, hi, heq⟩ | ⟨-, heq⟩ | ⟨hr', -⟩ := step_block_cases h
  · exact absurd (congrArg v heq) hne
  · exact ⟨i, hi, heq ▸ hne⟩
  · exact absurd (heq ▸ hv s.block) hne
  · exact absurd (hr.symm.trans hr') Bool.false_ne_true

theorem instr_of_crcreg_ne {i : Instr} {b : Block} (h : (blockAfter i b).crcreg ≠ b.crcreg) :
    i = .crcinit ∨ ∃ d, i = .crcbyte d := by
  obtain rfl | hbyte | hsame := blockAfter_crcreg_cases i
  · exact .inl rfl
  · exact .inr hbyte
  · exact absurd (hsame b) h

theorem instr_of_field_ne {i : Instr} {b : Block} {f : FieldReg} (h : (blockAfter i b).field f ≠ b.field f) :
    ∃ d, i = .fldwr f d := by
  obtain ⟨g, d, rfl⟩ | rfl | hsame := blockAfter_framePart_cases i
  · by_cases hfg : f = g
    · exact ⟨d, by rw [hfg]⟩
    · simp [blockAfter, hfg] at h
  · simp [blockAfter] at h
  · exact absurd ((Block.framePart_eq_iff.1 (hsame b)).1 f) h

theorem instr_of_tx_ne {i : Instr} {b : Block} (h : (blockAfter i b).tx ≠ b.tx) : i = .build := by
  obtain ⟨g, d, rfl⟩ | rfl | hsame := blockAfter_framePart_cases i
  · simp [blockAfter] at h
  · rfl
  · exact absurd (congrArg FramePart.tx (hsame b)) h

theorem instr_of_rx_ne {i : Instr} {b : Block} {k : Fin 8} (h : (blockAfter i b).rx[k.val] ≠ b.rx[k.val]) :
    ∃ d, i = .rxwr k d := by
  obtain ⟨j, d, rfl⟩ | rfl | hsame := blockAfter_responsePart_cases i
  · by_cases hjk : j.val = k.val
    · exact ⟨d, by rw [Fin.ext hjk]⟩
    · simp [blockAfter, hjk] at h
  · have hrx : b.verify.rx = b.rx := congrArg ResponsePart.rx b.verify_responsePart
    simp [blockAfter, hrx] at h
  · have hrx : (blockAfter i b).rx = b.rx := congrArg ResponsePart.rx (hsame b)
    simp [hrx] at h

theorem instr_of_diagnostics_ne {i : Instr} {b : Block}
    (h : ((blockAfter i b).dcalc, (blockAfter i b).drecv) ≠ (b.dcalc, b.drecv)) : i = .verify := by
  obtain ⟨j, d, rfl⟩ | rfl | hsame := blockAfter_responsePart_cases i
  · simp [blockAfter] at h
  · rfl
  · obtain ⟨-, hcalc, hrecv, -⟩ := Block.responsePart_eq_iff.1 (hsame b)
    simp [hcalc, hrecv] at h

/-- Settles O47: a register that changed was changed by the command presented, and each register has its own. -/
theorem registersHaveTheirWriters : Obligations.RegistersHaveTheirWriters := by
  intro s t hstep hr
  refine ⟨fun hne => ?_, fun f hne => ?_, fun hne => ?_, fun k hne => ?_, fun hne => ?_⟩
  · obtain ⟨i, hi, hne⟩ := exists_instr_of_step_ne Block.crcreg (fun _ => rfl) hstep hr hne
    simpa [hi] using instr_of_crcreg_ne hne
  · obtain ⟨i, hi, hne⟩ := exists_instr_of_step_ne (Block.field f) (by simp) hstep hr hne
    simpa [hi] using instr_of_field_ne hne
  · obtain ⟨i, hi, hne⟩ := exists_instr_of_step_ne Block.tx (fun _ => rfl) hstep hr hne
    simpa [hi] using instr_of_tx_ne hne
  · obtain ⟨i, hi, hne⟩ := exists_instr_of_step_ne (·.rx[k.val]) (fun _ => rfl) hstep hr hne
    simpa [hi] using instr_of_rx_ne hne
  · obtain ⟨i, hi, hne⟩ := exists_instr_of_step_ne (fun b => (b.dcalc, b.drecv)) (fun _ => rfl) hstep hr
      (by simpa [imp_iff_not_or] using hne)
    simpa [hi] using instr_of_diagnostics_ne hne

/-! ## Each bit of STATUS is set and cleared by its own causes (O48) -/

/-- What a step can do to the verdict flags: VERIFY decides them, RXWR and reset withdraw them, all else holds them
(R28). -/
theorem step_verdict_cases {s t : State} (h : step s = .next t) :
    (s.nextInstr = some .verify ∧ t.block.valid = decide (crc16 s.block.payload = s.block.received) ∧
      t.block.chkerr = decide (crc16 s.block.payload ≠ s.block.received)) ∨
    (((∃ k d, s.nextInstr = some (.rxwr k d)) ∨ s.nextIsReset = true) ∧
      t.block.valid = false ∧ t.block.chkerr = false) ∨
    (t.block.valid = s.block.valid ∧ t.block.chkerr = s.block.chkerr) := by
  have held {b : Block} (h : b.responsePart = s.block.responsePart) :
      b.valid = s.block.valid ∧ b.chkerr = s.block.chkerr :=
    ⟨congrArg ResponsePart.valid h, congrArg ResponsePart.chkerr h⟩
  obtain heq | ⟨i, hi, heq⟩ | ⟨-, heq⟩ | ⟨hr, heq⟩ := step_block_cases h <;> rw [heq]
  · exact .inr (.inr ⟨rfl, rfl⟩)
  · obtain ⟨k, d, rfl⟩ | rfl | hsame := blockAfter_responsePart_cases i
    · have hpart := s.block.rxwr_responsePart k d
      exact .inr (.inl ⟨.inl ⟨k, d, hi⟩, congrArg ResponsePart.valid hpart, congrArg ResponsePart.chkerr hpart⟩)
    · have hpart := s.block.verify_responsePart
      exact .inl ⟨hi, congrArg ResponsePart.valid hpart, congrArg ResponsePart.chkerr hpart⟩
    · exact .inr (.inr (held (hsame s.block)))
  · exact .inr (.inr (held (by simp)))
  · exact .inr (.inl ⟨.inr hr, rfl, rfl⟩)

/-- What a step can do to TXRDY: BUILD raises it, FLDWR and reset lower it, all else holds it (R28). -/
theorem step_txrdy_cases {s t : State} (h : step s = .next t) :
    (s.nextInstr = some .build ∧ t.block.txrdy = true) ∨
    (((∃ f d, s.nextInstr = some (.fldwr f d)) ∨ s.nextIsReset = true) ∧ t.block.txrdy = false) ∨
    t.block.txrdy = s.block.txrdy := by
  obtain heq | ⟨i, hi, heq⟩ | ⟨-, heq⟩ | ⟨hr, heq⟩ := step_block_cases h <;> rw [heq]
  · exact .inr (.inr rfl)
  · obtain ⟨f, d, rfl⟩ | rfl | hsame := blockAfter_framePart_cases i
    · exact .inr (.inl ⟨.inl ⟨f, d, hi⟩, congrArg FramePart.txrdy (s.block.fldwr_framePart f d)⟩)
    · exact .inl ⟨hi, congrArg FramePart.txrdy s.block.build_framePart⟩
    · exact .inr (.inr (congrArg FramePart.txrdy (hsame s.block)))
  · exact .inr (.inr (congrArg FramePart.txrdy (Block.raise_framePart (by decide) s.block)))
  · exact .inr (.inl ⟨.inr hr, rfl⟩)

/-- Recording an illegal word sets ILLEGAL (R147). -/
theorem Block.raise_illegal_illegal (b : Block) : (b.raise .illegal).illegal = true := by
  simp [Block.illegal]

/-- What a step can do to ILLEGAL: an illegal word raises it, reset lowers it, all else holds it (R28). -/
theorem step_illegal_cases {s t : State} (h : step s = .next t) :
    (s.nextIsIllegal = true ∧ t.block.illegal = true) ∨ (s.nextIsReset = true ∧ t.block.illegal = false) ∨
    t.block.illegal = s.block.illegal := by
  obtain heq | ⟨i, -, heq⟩ | ⟨hw, heq⟩ | ⟨hr, heq⟩ := step_block_cases h <;> rw [heq]
  · exact .inr (.inr rfl)
  · exact .inr (.inr (blockAfter_illegal i s.block))
  · exact .inl ⟨hw, s.block.raise_illegal_illegal⟩
  · exact .inr (.inl ⟨hr, rfl⟩)

/-- No step sets a reserved bit of STATUS (R28, R30). -/
theorem step_keeps_reservedZero {s t : State} (h : step s = .next t) (hs : s.block.status.extractLsb' 4 4 = 0#4) :
    t.block.status.extractLsb' 4 4 = 0#4 := by
  obtain heq | ⟨i, -, heq⟩ | ⟨-, heq⟩ | ⟨-, heq⟩ := step_block_cases h <;> rw [heq]
  · exact hs
  · rw [blockAfter_reserved, hs]
  · rw [Block.raise_status, reserved_statusSet, hs]
  · rfl

/-- Settles O48: a bit that rose or fell did so in a case of the step that writes it. -/
theorem statusBitsSetAndCleared : Obligations.StatusBitsSetAndCleared := by
  intro s t hstep
  have hverdict := step_verdict_cases hstep
  have htxrdy := step_txrdy_cases hstep
  have hillegal := step_illegal_cases hstep
  refine ⟨?_, ?_, ?_, ?_, ?_, ?_, ?_, ?_, step_keeps_reservedZero hstep⟩ <;> intro hbefore hafter
  case refine_1 | refine_2 | refine_3 | refine_4 =>
    obtain ⟨hi, hvalid, hchkerr⟩ | ⟨hcause, hvalid, hchkerr⟩ | ⟨hvalid, hchkerr⟩ := hverdict <;> simp_all
  case refine_5 | refine_6 =>
    obtain ⟨hw, hbit⟩ | ⟨hr, hbit⟩ | hbit := hillegal <;> simp_all
  case refine_7 | refine_8 =>
    obtain ⟨hi, hbit⟩ | ⟨hcause, hbit⟩ | hbit := htxrdy <;> simp_all

/-! ## ILLEGAL after a run from reset (O49) -/

/-- One word sets ILLEGAL exactly when it is illegal, and no word clears it (R147). -/
theorem commandStep_illegal (b : Block) (w : CmdWord) : (commandStep b w).illegal = (b.illegal || !legal w) := by
  obtain ⟨hl, i, -, hstep⟩ | ⟨hl, hstep⟩ := commandStep_cases w <;> rw [hstep, hl]
  · simp
  · simp [Block.illegal]

/-- ILLEGAL after a run from any block: it stood before, or some word was illegal (R28, R148). -/
theorem runWords_illegal (b : Block) (ws : List CmdWord) :
    (runWords b ws).illegal = true ↔ b.illegal = true ∨ ∃ w ∈ ws, legal w = false := by
  induction ws generalizing b with
  | nil => simp
  | cons w ws ih => simp [ih, commandStep_illegal, or_assoc]

/-- Settles O49: at reset ILLEGAL is 0, so after the run it tells of the run's words alone. -/
theorem illegalBitTellsIllegalWord : Obligations.IllegalBitTellsIllegalWord := by
  intro ws
  simp [runWords_illegal, show Block.reset.illegal = false from rfl]

end Sys2Proof.Machine
end

section
/-! PROOF. O44: the read port's table (10_state.md R31, 43_host.md R142, R143). -/

namespace Sys2Proof.Machine

/-- Indices 0x00 to 0x1E read the byte of the state (R142). -/
theorem readPort_mapped (b : Block) {i : ReadIndex} (h : i.toNat ≤ 0x1E) : readPort b i = some (b.byteAt i.toNat) :=
  if_pos h

/-- Indices 0x1F to 0xFF read nothing (R143). -/
theorem readPort_unmapped (b : Block) {i : ReadIndex} (h : 0x1F ≤ i.toNat) : readPort b i = none :=
  if_neg (by omega)

/-- TX[k] is at index 0x08 + k (R31). -/
theorem Block.byteAt_tx (b : Block) (k : Fin 10) : b.byteAt (0x08 + k.val) = b.tx[k.val] := by
  have hk := k.isLt
  simp [Block.byteAt, show 0x08 + k.val ≤ 0x11 by omega, show ∀ n < 8, 0x08 + k.val ≠ n by omega]

/-- RX[k] is at index 0x12 + k (R31). -/
theorem Block.byteAt_rx (b : Block) (k : Fin 8) : b.byteAt (0x12 + k.val) = b.rx[k.val] := by
  have hk := k.isLt
  simp [Block.byteAt, show ¬0x12 + k.val ≤ 0x11 by omega, show 0x12 + k.val ≤ 0x19 by omega,
    show ∀ n < 8, 0x12 + k.val ≠ n by omega]

theorem readPort_tx (b : Block) (k : Fin 10) : readPort b (BitVec.ofNat 8 (0x08 + k.val)) = some b.tx[k.val] := by
  have hindex : (BitVec.ofNat 8 (0x08 + k.val)).toNat = 0x08 + k.val := by
    simp; omega
  rw [readPort_mapped b (by omega), hindex, Block.byteAt_tx]

theorem readPort_rx (b : Block) (k : Fin 8) : readPort b (BitVec.ofNat 8 (0x12 + k.val)) = some b.rx[k.val] := by
  have hindex : (BitVec.ofNat 8 (0x12 + k.val)).toNat = 0x12 + k.val := by
    simp; omega
  rw [readPort_mapped b (by omega), hindex, Block.byteAt_rx]

/-- While CRCREG is the raw register over `p`, CRCOUT is the CRC of `p` (R24, R84). -/
theorem Block.crcout_eq_crc16 {b : Block} {p : List Byte} (h : b.crcreg = crcRaw Config.crcSeed p) :
    b.crcout = crc16 p := by
  rw [Block.crcout, h, crc16]

/-- Settles O44: the single registers by evaluating the table, TX and RX by their ranges of indices, and the two bytes
of CRCOUT as the CRC in wire order. -/
theorem readMap : Obligations.ReadMap := by
  refine ⟨fun b => ?_, fun b i hi => readPort_unmapped b hi, fun b p hp => ?_⟩
  · exact ⟨rfl, rfl, rfl, rfl, rfl, rfl, rfl, rfl, readPort_tx b, readPort_rx b, rfl, rfl, rfl, rfl, rfl⟩
  · refine ⟨lowByte b.crcout, highByte b.crcout, rfl, rfl, ?_⟩
    rw [← Block.crcout_eq_crc16 hp, wordToBytes_eq]

end Sys2Proof.Machine
end

section
/-! PROOF. O15: presented words run in issue order, each taken whole before the next event (20_memory.md R51, 43_host.md
R145, R148). -/

namespace Sys2Proof.Machine

/-- The machine takes a presented word in one step, and the block makes the spec's step over it (R145, R146). -/
theorem step_command {s : State} {w : CmdWord} {rest : List HostEvent} (hp : s.pending = .command w :: rest) :
    step s = .next { s with pending := rest, block := commandStep s.block w } := by
  rw [step_event hp, serve, present_eq]
  cases hd : decodeWord w with
  | ok i => rw [commandStep_of_ok hd]; rfl
  | error e => rw [commandStep_of_illegal (legal_eq_false_of_error hd)]; rfl

/-- The machine takes a mapped read in one step: one more answer, and the block as it was (R141, R142). -/
theorem step_read_mapped {s : State} {i : ReadIndex} {v : Byte} {rest : List HostEvent}
    (hp : s.pending = .read i :: rest) (hread : readPort s.block i = some v) :
    step s = .next { s with pending := rest, answers := s.answers ++ [⟨i, v⟩] } := by
  rw [step_event hp, serve, answerRead_mapped (s := { s with pending := rest }) hread]

/-- A run goes on after a step that answers a next state. -/
theorem run_succ_of_step {s t : State} (h : step s = .next t) (n : Nat) :
    Host.Core.run core (n + 1) s = Host.Core.run core n t := by
  have hcore : core.step s = .next t := h
  simp only [Host.Core.run, hcore]

/-- Words presented before other events are taken first, one step each, and leave the block of their run (R148). -/
theorem run_commands (s : State) (ws : List CmdWord) (rest : List HostEvent) (n : Nat) :
    Host.Core.run core (ws.length + n) { s with pending := ws.map .command ++ rest } =
      Host.Core.run core n { s with pending := rest, block := runWords s.block ws } := by
  induction ws generalizing s with
  | nil => rw [List.length_nil, Nat.zero_add]; rfl
  | cons w ws ih =>
    rw [List.length_cons, Nat.add_right_comm]
    exact (run_succ_of_step (step_command rfl) _).trans (ih { s with block := commandStep s.block w })

/-- Settles O15: the words run first and leave the block of their run; the read then answers from that block. -/
theorem readSeesEarlierCommands : Obligations.ReadSeesEarlierCommands := by
  intro s ws i v hread
  have hstep := step_read_mapped
    (s := { s with pending := .read i :: s.pending, block := runWords s.block ws }) rfl hread
  exact (run_commands s ws _ 1).trans (run_succ_of_step hstep 0)

end Sys2Proof.Machine
end

section
/-! PROOF. O55: every word but a CRCBYTE is idempotent (20_memory.md R48). A block is its parts, and each part has only
the commands that write it to look at. -/

namespace Sys2Proof.Machine

/-! ## A block is its parts -/

/-- STATUS is its four named bits and the reserved bits 7:4 (R28). -/
theorem status_ext {v v' : Byte} (hbit : ∀ k, statusBit k v = statusBit k v')
    (hreserved : v.extractLsb' 4 4 = v'.extractLsb' 4 4) : v = v' := by
  refine BitVec.eq_of_getLsbD_eq fun n hn => ?_
  match n with
  | 0 => exact hbit .valid
  | 1 => exact hbit .chkerr
  | 2 => exact hbit .illegal
  | 3 => exact hbit .txrdy
  | n + 4 =>
    have hslice := congrArg (BitVec.getLsbD · n) hreserved
    simpa [show n < 4 by omega, Nat.add_comm 4 n] using hslice

/-- Two blocks are equal when their parts, ILLEGAL and the reserved bits are (R22). -/
theorem Block.ext_parts {b b' : Block} (hcrc : b.crcreg = b'.crcreg) (hframe : b.framePart = b'.framePart)
    (hresponse : b.responsePart = b'.responsePart) (hillegal : b.illegal = b'.illegal)
    (hreserved : b.status.extractLsb' 4 4 = b'.status.extractLsb' 4 4) : b = b' := by
  obtain ⟨hfield, htx, htxrdy⟩ := Block.framePart_eq_iff.1 hframe
  obtain ⟨hrx, hcalc, hrecv, hvalid, hchkerr⟩ := Block.responsePart_eq_iff.1 hresponse
  have hstatus : b.status = b'.status := by
    refine status_ext (fun k => ?_) hreserved
    cases k with
    | valid => exact hvalid
    | chkerr => exact hchkerr
    | illegal => exact hillegal
    | txrdy => exact htxrdy
  have haddr := hfield .addr
  have hcmd := hfield .cmd
  have hsub := hfield .sub
  have hflag := hfield .flag
  cases b
  cases b'
  simp_all [Block.field]

/-! ## A command repeated, part by part -/

/-- CRCINIT loads the same seed again; CRCBYTE is left out, as it advances CRCREG again (R86, R87). -/
theorem blockAfter_crcreg_idem {i : Instr} (hi : ∀ d, i ≠ .crcbyte d) (b : Block) :
    (blockAfter i (blockAfter i b)).crcreg = (blockAfter i b).crcreg := by
  obtain rfl | ⟨d, rfl⟩ | hsame := blockAfter_crcreg_cases i
  · rfl
  · exact absurd rfl (hi d)
  · exact hsame _

/-- FLDWR writes the same value again, and BUILD reads only the fields, which it does not write (R104, R105). -/
theorem blockAfter_framePart_idem (i : Instr) (b : Block) :
    (blockAfter i (blockAfter i b)).framePart = (blockAfter i b).framePart := by
  obtain ⟨f, d, rfl⟩ | rfl | hsame := blockAfter_framePart_cases i
  · simp only [blockAfter, Block.fldwr_framePart]
    simp +contextual
  · simp only [blockAfter, Block.build_framePart]
    simp
  · exact hsame _

/-- RXWR writes the same value again, and VERIFY reads only RX, which it does not write (R126, R127). -/
theorem blockAfter_responsePart_idem (i : Instr) (b : Block) :
    (blockAfter i (blockAfter i b)).responsePart = (blockAfter i b).responsePart := by
  obtain ⟨k, d, rfl⟩ | rfl | hsame := blockAfter_responsePart_cases i
  · simp only [blockAfter, Block.rxwr_responsePart]
    simp
  · have hrx : b.verify.rx = b.rx := congrArg ResponsePart.rx b.verify_responsePart
    obtain ⟨hpayload, hreceived⟩ := Block.views_of_rx hrx
    simp only [blockAfter, Block.verify_responsePart, hrx, hpayload, hreceived]
  · exact hsame _

/-- Every command but CRCBYTE is idempotent (R48). -/
theorem blockAfter_idem {i : Instr} (hi : ∀ d, i ≠ .crcbyte d) (b : Block) :
    blockAfter i (blockAfter i b) = blockAfter i b :=
  Block.ext_parts (blockAfter_crcreg_idem hi b) (blockAfter_framePart_idem i b) (blockAfter_responsePart_idem i b)
    (blockAfter_illegal i _) (blockAfter_reserved i _)

/-- A zero byte after reset advances CRCREG each time it is presented (R48, R87). -/
theorem crcbyte_reset_not_idem :
    (Block.reset.crcbyte 0x00#8).crcbyte 0x00#8 ≠ Block.reset.crcbyte 0x00#8 := by
  have hfirst : crcByte Block.reset.crcreg 0x00#8 = 0x0F87#16 := by decide
  have hsecond : crcByte 0x0F87#16 0x00#8 ≠ 0x0F87#16 := by decide
  intro hsame
  have hcrc := congrArg Block.crcreg hsame
  simp only [Block.crcbyte_eq, Block.setCrcreg_crcreg, hfirst] at hcrc
  exact hsecond hcrc

/-- Recording an illegal word again changes nothing further: ILLEGAL is sticky (R48). -/
theorem Block.raise_raise (k : StatusBit) (b : Block) : (b.raise k).raise k = b.raise k := by
  simp [Block.raise, statusSet, BitVec.or_assoc]

/-- Settles O55: a legal word repeats its command, an illegal one the recording of ILLEGAL; and a zero byte presented
twice after reset advances CRCREG twice. -/
theorem commandsAreIdempotent : Obligations.CommandsAreIdempotent := by
  refine ⟨fun b w hw => ?_, Block.reset, 0x00#8, ?_⟩
  · obtain ⟨-, i, hd, hstep⟩ | ⟨-, hstep⟩ := commandStep_cases w
    · rw [hstep, hstep, blockAfter_idem fun d hi => hw d (hi ▸ hd)]
    · rw [hstep, hstep, Block.raise_raise]
  · have hd : decodeWord (encode (.crcbyte 0x00#8)) = .ok (.crcbyte 0x00#8) := rfl
    simp only [runWords_cons, runWords_nil, commandStep_of_ok hd]
    exact crcbyte_reset_not_idem

end Sys2Proof.Machine
end

section
/-! PROOF. O4, O5, O3: the decoder and the encoder are inverse. A command and its word have the same three fields
(30_encoding.md R60, R62, R70), and a word is its fields. -/

namespace Sys2Proof

/-! ## The fields of a command -/

/-- SEL of a command's word (R61, R62). -/
def Instr.selector : Instr → BitVec 4
  | .fldwr f _ => BitVec.ofNat 4 f.index
  | .rxwr k _ => BitVec.ofNat 4 k.val
  | .nop | .crcinit | .crcbyte _ | .build | .verify => 0#4

/-- DATA of a command's word (R61, R62). -/
def Instr.data : Instr → Byte
  | .crcbyte d | .fldwr _ d | .rxwr _ d => d
  | .nop | .crcinit | .build | .verify => 0#8

theorem opOf_encode (i : Instr) : opOf (encode i) = Laws.rowOpcode i := by
  cases i with
  | nop => exact Laws.Opcode.nop
  | crcinit => exact Laws.Opcode.crcinit
  | crcbyte d => exact Laws.Opcode.crcbyte d
  | fldwr f d => exact Laws.Opcode.fldwr f d
  | build => exact Laws.Opcode.build
  | rxwr k d => exact Laws.Opcode.rxwr k d
  | verify => exact Laws.Opcode.verify

theorem selOf_encode (i : Instr) : selOf (encode i) = i.selector := by
  cases i with
  | crcbyte d => exact selOf_packWord 0x2#4 0 d
  | fldwr f d => exact selOf_packWord 0x3#4 f.index d
  | rxwr k d => exact selOf_packWord 0x5#4 k.val d
  | nop | crcinit | build | verify => rfl

theorem dataOf_encode (i : Instr) : dataOf (encode i) = i.data := by
  cases i with
  | crcbyte d => exact dataOf_packWord 0x2#4 0 d
  | fldwr f d => exact dataOf_packWord 0x3#4 f.index d
  | rxwr k d => exact dataOf_packWord 0x5#4 k.val d
  | nop | crcinit | build | verify => rfl

/-- A word is a command's exactly when it has the command's fields (R60). -/
theorem encode_eq_iff_fields (i : Instr) (w : CmdWord) :
    encode i = w ↔ opOf w = Laws.rowOpcode i ∧ selOf w = i.selector ∧ dataOf w = i.data := by
  constructor
  · rintro rfl
    exact ⟨opOf_encode i, selOf_encode i, dataOf_encode i⟩
  · rintro ⟨hop, hsel, hdata⟩
    exact word_ext_fields ((opOf_encode i).trans hop.symm) ((selOf_encode i).trans hsel.symm)
      ((dataOf_encode i).trans hdata.symm)

/-! ## The decoder in the fields of the word -/

/-- With SEL[3:2] = 0, SEL[1:0] names a field exactly when SEL is the field's index (R61, R63). -/
theorem fieldOf_eq_iff (w : CmdWord) (f : FieldReg) :
    (w.extractLsb' 10 2 = 0#2 ∧ fieldOf w = f) ↔ selOf w = BitVec.ofNat 4 f.index := by
  have hslice : w.extractLsb' 8 2 = (selOf w).extractLsb' 0 2 := by
    ext k hk
    simp [selOf, show k < 4 by omega]
  rw [fieldReserved_eq_zero_iff, fieldOf, hslice]
  have hall : ∀ sel : BitVec 4,
      (sel &&& 0xC#4 = 0#4 ∧ FieldReg.ofBits (sel.extractLsb' 0 2) = f) ↔ sel = BitVec.ofNat 4 f.index := by
    cases f <;> decide
  exact hall (selOf w)

/-- With SEL[3] = 0, SEL[2:0] is an RX index exactly when SEL is (R61, R63). -/
theorem rxIndexOf_eq_iff (w : CmdWord) (k : Fin 8) :
    (w.extractLsb' 11 1 = 0#1 ∧ rxIndexOf w = k) ↔ selOf w = BitVec.ofNat 4 k.val := by
  have hslice : w.extractLsb' 8 3 = (selOf w).extractLsb' 0 3 := by
    ext n hn
    simp [selOf, show n < 4 by omega]
  rw [rxReserved_eq_zero_iff, rxIndexOf, hslice]
  have hall : ∀ (sel : BitVec 4) (k : Fin 8),
      (sel &&& 0x8#4 = 0#4 ∧ (sel.extractLsb' 0 3).toFin = k) ↔ sel = BitVec.ofNat 4 k.val := by
    decide
  exact hall (selOf w) k

/-- A word decodes to a command exactly when it has the command's fields (R61, R62, R66). -/
theorem decodeWord_eq_ok_iff_fields (w : CmdWord) (i : Instr) :
    decodeWord w = .ok i ↔ opOf w = Laws.rowOpcode i ∧ selOf w = i.selector ∧ dataOf w = i.data := by
  constructor
  · intro h
    unfold decodeWord at h
    split at h <;> rename_i hop
    case h_1 | h_2 | h_5 | h_7 =>
      obtain ⟨-, hop⟩ := BitVec.toNat_eq_nat.1 hop
      obtain ⟨rfl, hfields⟩ := withoutOperands_eq_ok_iff.1 h
      exact ⟨hop, hfields⟩
    case h_3 | h_4 | h_6 =>
      obtain ⟨-, hop⟩ := BitVec.toNat_eq_nat.1 hop
      split at h
      · cases h
      · next hres =>
        obtain rfl := Except.ok.inj h
        simp_all [Laws.rowOpcode, Instr.selector, Instr.data, ← fieldOf_eq_iff, ← rxIndexOf_eq_iff]
    case h_8 => cases h
  · rintro ⟨hop, hsel, hdata⟩
    cases i with
    | fldwr f d =>
      obtain ⟨hres, hfield⟩ := (fieldOf_eq_iff w f).2 hsel
      simp_all [decodeWord, Laws.rowOpcode, Instr.data]
    | rxwr k d =>
      obtain ⟨hres, hindex⟩ := (rxIndexOf_eq_iff w k).2 hsel
      simp_all [decodeWord, Laws.rowOpcode, Instr.data]
    | nop | crcinit | crcbyte _ | build | verify =>
      simp_all [decodeWord, withoutOperands, Laws.rowOpcode, Instr.selector, Instr.data]

/-! ## Decoding and encoding -/

/-- A word decodes to a command exactly when it is the command's word (R62, R64, R70). -/
theorem decodeWord_eq_ok_iff (w : CmdWord) (i : Instr) : decodeWord w = .ok i ↔ encode i = w := by
  rw [decodeWord_eq_ok_iff_fields, encode_eq_iff_fields]

@[simp] theorem decodeWord_encode (i : Instr) : decodeWord (encode i) = .ok i :=
  (decodeWord_eq_ok_iff _ i).2 rfl

/-- Settles O4: a command's word has the command's fields, and the decoder reads a command from its fields. -/
theorem decodeOfEncode : Obligations.DecodeOfEncode :=
  decodeWord_encode

/-- Settles O5: a word has the fields of the command it decodes to, and so has that command's word. -/
theorem encodeOfDecode : Obligations.EncodeOfDecode :=
  fun w i => (decodeWord_eq_ok_iff w i).1

/-- Settles O3: each written word is the encoding of its command, so it decodes to it. -/
theorem writtenWordsDecode : Obligations.WrittenWordsDecode := by
  unfold Obligations.WrittenWordsDecode
  simp only [decodeWord_eq_ok_iff]
  decide

end Sys2Proof
end

section
/-! PROOF. O6, O7: legality row by row and field by field (30_encoding.md R64 to R66), and what an illegal word does
(43_host.md R147). -/

namespace Sys2Proof

/-! ## The fields as numbers -/

theorem opOf_toNat (w : CmdWord) : (opOf w).toNat = w.toNat / 4096 := by
  rw [opOf, BitVec.extractLsb'_toNat, Nat.shiftRight_eq_div_pow]
  omega

theorem selOf_toNat (w : CmdWord) : (selOf w).toNat = w.toNat / 256 % 16 := by
  rw [selOf, BitVec.extractLsb'_toNat, Nat.shiftRight_eq_div_pow]

theorem dataOf_toNat (w : CmdWord) : (dataOf w).toNat = w.toNat % 256 := by
  rw [dataOf, BitVec.extractLsb'_toNat, Nat.shiftRight_zero]

theorem highByte_toNat (w : CmdWord) : (highByte w).toNat = w.toNat / 256 := by
  rw [highByte, BitVec.extractLsb'_toNat, Nat.shiftRight_eq_div_pow]
  omega

/-- The number of a word, from its fields (R60). -/
theorem toNat_eq_fields (w : CmdWord) :
    w.toNat = 4096 * (opOf w).toNat + 256 * (selOf w).toNat + (dataOf w).toNat := by
  rw [opOf_toNat, selOf_toNat, dataOf_toNat]
  omega

/-! ## The rows of the opcode map -/

theorem OpRow.selects_iff (r : OpRow) (w : CmdWord) : r.selects w = true ↔ w &&& r.mask = r.pattern := by
  simp [OpRow.selects]

/-- Legality as the seven masked compares (R64). -/
theorem legal_iff_masks (w : CmdWord) :
    legal w = true ↔
      w &&& 0xFFFF#16 = 0x0000#16 ∨ w &&& 0xFFFF#16 = 0x1000#16 ∨ w &&& 0xFF00#16 = 0x2000#16 ∨
      w &&& 0xFC00#16 = 0x3000#16 ∨ w &&& 0xFFFF#16 = 0x4000#16 ∨ w &&& 0xF800#16 = 0x5000#16 ∨
      w &&& 0xFFFF#16 = 0x6000#16 := by
  simp only [legal, opRows, List.any_cons, List.any_nil, Bool.or_eq_true, OpRow.selects_iff, Bool.false_eq_true,
    or_false]

/-- A row's mask covers OP, so a word has the OP of every row it selects (R64). -/
theorem opOf_of_selects {r : OpRow} {w : CmdWord} (hr : r ∈ opRows) (h : w &&& r.mask = r.pattern) :
    opOf w = opOf r.pattern := by
  have hmask : ∀ r ∈ opRows, opOf r.mask = BitVec.allOnes 4 := by decide
  obtain ⟨hop, -, -⟩ := (and_eq_iff_fields w r.mask r.pattern).1 h
  rwa [hmask r hr, BitVec.and_allOnes] at hop

/-- At most one row matches a word: the OP values of the rows differ (R64). -/
theorem row_unique {r r' : OpRow} {w : CmdWord} (hr : r ∈ opRows) (hr' : r' ∈ opRows)
    (h : w &&& r.mask = r.pattern) (h' : w &&& r'.mask = r'.pattern) : r = r' := by
  have hdiffer : ∀ r ∈ opRows, ∀ r' ∈ opRows, opOf r.pattern = opOf r'.pattern → r = r' := by decide
  exact hdiffer r hr r' hr' ((opOf_of_selects hr h).symm.trans (opOf_of_selects hr' h'))

/-! ## The written-out form -/

theorem word_eq_iff_fields (w v : CmdWord) : w = v ↔ opOf w = opOf v ∧ selOf w = selOf v ∧ dataOf w = dataOf v :=
  ⟨fun h => by simp [h], fun ⟨hop, hsel, hdata⟩ => word_ext_fields hop hsel hdata⟩

/-- The high byte of a word is OP and SEL (R60). -/
theorem highByte_eq_iff_fields (w v : CmdWord) : highByte w = highByte v ↔ opOf w = opOf v ∧ selOf w = selOf v := by
  simp only [← BitVec.toNat_inj, opOf_toNat, selOf_toNat, highByte_toNat]
  omega

/-- Legality as R64 writes it out. -/
theorem legal_iff_written (w : CmdWord) :
    legal w = true ↔
      w = 0x0000#16 ∨ w = 0x1000#16 ∨ w.extractLsb' 8 8 = 0x20#8 ∨
      (w.extractLsb' 12 4 = 0x3#4 ∧ w.extractLsb' 10 2 = 0#2) ∨ w = 0x4000#16 ∨
      (w.extractLsb' 12 4 = 0x5#4 ∧ w.extractLsb' 11 1 = 0#1) ∨ w = 0x6000#16 := by
  have hcrcbyte : w.extractLsb' 8 8 = 0x20#8 ↔ opOf w = 0x2#4 ∧ selOf w = 0#4 := highByte_eq_iff_fields w 0x2000#16
  rw [legal_iff_fields, hcrcbyte]
  simp only [word_eq_iff_fields w]
  rfl

/-- Settles O6: the rows as masks, their different OP values, the written-out form, and the decoder on legal words. -/
theorem legalWords : Obligations.LegalWords :=
  ⟨legal_iff_masks, fun _ _ _ => row_unique, legal_iff_written,
    fun _ => ⟨fun ⟨_, hi⟩ => legal_of_decodeWord_ok hi, fun h => (Machine.decodes_of_legal h).imp fun _ hi => hi.1⟩⟩

/-! ## Illegal words -/

/-- A reserved opcode is illegal (R65). -/
theorem legal_eq_false_of_reserved {w : CmdWord} (h : 7 ≤ (opOf w).toNat) : legal w = false := by
  rw [Bool.eq_false_iff, ne_eq, legal_iff_fields]
  rintro (⟨hop, -⟩ | ⟨hop, -⟩ | ⟨hop, -⟩ | ⟨hop, -⟩ | ⟨hop, -⟩ | ⟨hop, -⟩ | ⟨hop, -⟩) <;> simp [hop] at h

/-- Bits 11:0 of a word are SEL and DATA (R60). -/
theorem low12_eq_zero_iff (w : CmdWord) : w.extractLsb' 0 12 = 0#12 ↔ selOf w = 0#4 ∧ dataOf w = 0#8 := by
  simp only [← BitVec.toNat_inj, selOf_toNat, dataOf_toNat, BitVec.extractLsb'_toNat, BitVec.toNat_ofNat]
  omega

/-- FLDWR's reserved bits are set exactly when SEL is at least 4 (R66). -/
theorem fieldReserved_ne_zero_iff (w : CmdWord) : w.extractLsb' 10 2 ≠ 0#2 ↔ 4 ≤ (selOf w).toNat := by
  rw [ne_eq, fieldReserved_eq_zero_iff]
  exact (by decide : ∀ sel : BitVec 4, ¬sel &&& 0xC#4 = 0#4 ↔ 4 ≤ sel.toNat) _

/-- RXWR's reserved bit is set exactly when SEL is at least 8 (R66). -/
theorem rxReserved_ne_zero_iff (w : CmdWord) : w.extractLsb' 11 1 ≠ 0#1 ↔ 8 ≤ (selOf w).toNat := by
  rw [ne_eq, rxReserved_eq_zero_iff]
  exact (by decide : ∀ sel : BitVec 4, ¬sel &&& 0x8#4 = 0#4 ↔ 8 ≤ sel.toNat) _

/-- Below the reserved opcodes, a word is illegal exactly when bits its opcode wants zero are not (R66). -/
theorem legal_eq_false_iff {w : CmdWord} (h : (opOf w).toNat < 7) :
    legal w = false ↔
      ((opOf w = 0x0#4 ∨ opOf w = 0x1#4 ∨ opOf w = 0x4#4 ∨ opOf w = 0x6#4) ∧ w.extractLsb' 0 12 ≠ 0#12) ∨
      (opOf w = 0x2#4 ∧ selOf w ≠ 0#4) ∨ (opOf w = 0x3#4 ∧ 4 ≤ (selOf w).toNat) ∨
      (opOf w = 0x5#4 ∧ 8 ≤ (selOf w).toNat) := by
  have hops : ∀ op : BitVec 4, op.toNat < 7 →
      op = 0x0#4 ∨ op = 0x1#4 ∨ op = 0x2#4 ∨ op = 0x3#4 ∨ op = 0x4#4 ∨ op = 0x5#4 ∨ op = 0x6#4 := by decide
  rw [Bool.eq_false_iff, ne_eq, legal_iff_fields, ne_eq, low12_eq_zero_iff, ← fieldReserved_ne_zero_iff,
    ← rxReserved_ne_zero_iff]
  obtain hop | hop | hop | hop | hop | hop | hop := hops _ h <;> simp [hop]

/-- Settles O7: reserved opcodes, the zero bits each opcode wants, and the step that records an illegal word. -/
theorem illegalWords : Obligations.IllegalWords := by
  refine ⟨fun w => legal_eq_false_of_reserved, fun w => legal_eq_false_iff, fun s w hl => ?_⟩
  rw [Machine.step_command rfl, Machine.commandStep_of_illegal hl]
  rfl

end Sys2Proof
end

section
/-! PROOF. O8: the census of the encoding (30_encoding.md R69). A row's words are counted field by field, and the legal
words are the rows' words together, since no word selects two rows. -/

namespace Sys2Proof

/-- The fields of a word can be any three values (R60). -/
theorem exists_word_of_fields (op sel : BitVec 4) (d : Byte) :
    ∃ w : CmdWord, opOf w = op ∧ selOf w = sel ∧ dataOf w = d :=
  ⟨packWord (op.setWidth 16 <<< 12) sel.toNat d, opOf_packWord op _ d sel.isLt, by simp [selOf_packWord],
    dataOf_packWord op _ d⟩

/-- The words whose fields meet three conditions are counted field by field. -/
theorem card_words_of_fields (P Q : BitVec 4 → Bool) (R : Byte → Bool) :
    (Finset.univ.filter fun w : CmdWord => P (opOf w) ∧ Q (selOf w) ∧ R (dataOf w)).card =
      (Finset.univ.filter fun op => P op).card *
        ((Finset.univ.filter fun sel => Q sel).card * (Finset.univ.filter fun d => R d).card) := by
  rw [← Finset.card_product, ← Finset.card_product]
  refine Finset.card_bij (fun w _ => (opOf w, selOf w, dataOf w)) (fun w hw => by simpa using hw) ?_ ?_
  · intro v _ w _ h
    simp only [Prod.mk.injEq] at h
    obtain ⟨hop, hsel, hdata⟩ := h
    exact word_ext_fields hop hsel hdata
  · rintro ⟨op, sel, d⟩ h
    obtain ⟨w, rfl, rfl, rfl⟩ := exists_word_of_fields op sel d
    exact ⟨w, by simpa using h, rfl⟩

/-- The number of words that select a row (R69). -/
def OpRow.count (r : OpRow) : Nat := (Finset.univ.filter fun w => r.selects w = true).card

/-- A row's words, counted field by field. -/
theorem OpRow.count_eq (r : OpRow) :
    r.count =
      (Finset.univ.filter fun op : BitVec 4 => op &&& opOf r.mask == opOf r.pattern).card *
        ((Finset.univ.filter fun sel : BitVec 4 => sel &&& selOf r.mask == selOf r.pattern).card *
          (Finset.univ.filter fun d : Byte => d &&& dataOf r.mask == dataOf r.pattern).card) := by
  rw [← card_words_of_fields, OpRow.count]
  simp only [OpRow.selects_iff, and_eq_iff_fields, beq_iff_eq]

/-- The words that select each row of the map (R69). -/
theorem opRows_map_count : opRows.map OpRow.count = [1, 1, 256, 1024, 1, 2048, 1] := by
  rw [funext OpRow.count_eq]
  decide +kernel

/-- Rows no two of which share a word select, together, the sum of their words. -/
theorem card_any_selects {rows : List OpRow}
    (h : rows.Pairwise fun r r' => ∀ w, ¬(r.selects w = true ∧ r'.selects w = true)) :
    (Finset.univ.filter fun w => rows.any (·.selects w) = true).card = (rows.map OpRow.count).sum := by
  induction rows with
  | nil => simp
  | cons r rows ih =>
    obtain ⟨hr, hrows⟩ := List.pairwise_cons.1 h
    have hdisjoint : Disjoint (Finset.univ.filter fun w => r.selects w = true)
        (Finset.univ.filter fun w => rows.any (·.selects w) = true) := by
      refine Finset.disjoint_filter.2 fun w _ hw hany => ?_
      obtain ⟨r', hr', hw'⟩ := List.any_eq_true.1 hany
      exact hr r' hr' w ⟨hw, hw'⟩
    simp only [List.any_cons, Bool.or_eq_true, Finset.filter_or, List.map_cons, List.sum_cons]
    rw [Finset.card_union_of_disjoint hdisjoint, ih hrows, OpRow.count]

/-- No two rows of the map share a word (R64). -/
theorem opRows_pairwise_disjoint :
    opRows.Pairwise fun r r' => ∀ w, ¬(r.selects w = true ∧ r'.selects w = true) := by
  have hnodup : opRows.Pairwise (· ≠ ·) := by decide
  refine hnodup.imp_of_mem fun hr hr' hne w ⟨h, h'⟩ => hne ?_
  exact row_unique hr hr' ((OpRow.selects_iff _ _).1 h) ((OpRow.selects_iff _ _).1 h')

/-- The legal words (R69). -/
theorem card_legal : (Finset.univ.filter fun w => legal w = true).card = 3332 := by
  calc (Finset.univ.filter fun w => legal w = true).card
    _ = (opRows.map OpRow.count).sum := card_any_selects opRows_pairwise_disjoint
    _ = 3332 := by rw [opRows_map_count]; rfl

theorem card_cmdWord : Fintype.card CmdWord = 65536 :=
  FinEnum.card_eq_fintypeCard.symm.trans (FinEnum.card_bitVec 16)

/-- The illegal words are the other ones (R66, R69). -/
theorem card_illegal : (Finset.univ.filter fun w => legal w = false).card = 62204 := by
  have hrest : (Finset.univ.filter fun w => legal w = false) = (Finset.univ.filter fun w => legal w = true)ᶜ := by
    ext w
    simp
  rw [hrest, Finset.card_compl, card_legal, card_cmdWord]

/-- The census with the rows' names. -/
theorem opRows_map_mnemonic_count :
    (opRows.map fun r => (r.mnemonic, r.count)) =
      [("NOP", 1), ("CRCINIT", 1), ("CRCBYTE", 256), ("FLDWR", 1024), ("BUILD", 1), ("RXWR", 2048), ("VERIFY", 1)] := by
  rw [← List.zip_map', opRows_map_count]
  rfl

/-- Settles O8: the rows field by field, the legal words as their sum, and the illegal words as the rest of all words. -/
theorem encodingCensus : Obligations.EncodingCensus :=
  ⟨opRows_map_mnemonic_count, card_legal, card_illegal⟩

end Sys2Proof
end

section
/-! PROOF. O9: words carried over a byte-wide channel in either order (30_encoding.md R60, R68; log entry 5). -/

namespace Sys2Proof

/-- In either order, a word's two bytes carry the word (R42, R60). -/
theorem bytesOfWord_eq (o : ByteOrder) (w : BitVec 16) :
    ∃ first second, bytesOfWord o w = [first, second] ∧ wordOfBytes o first second = w := by
  cases o with
  | lowFirst => exact ⟨lowByte w, highByte w, rfl, joinBytes_high_low w⟩
  | highFirst => exact ⟨highByte w, lowByte w, rfl, joinBytes_high_low w⟩

/-- A word's bytes before any others decode as the word and leave the others (R60). -/
theorem decodeBytes_bytesOfWord (o : ByteOrder) (w : CmdWord) (rest : List Byte) :
    decodeBytes o (bytesOfWord o w ++ rest) = (decodeWord w).map (fun i => (i, rest)) := by
  obtain ⟨first, second, hbytes, hword⟩ := bytesOfWord_eq o w
  rw [hbytes, ← hword]
  rfl

/-- A stream that ends inside a word is refused (R68). -/
theorem decodeBytes_of_short (o : ByteOrder) {short : List Byte} (h : short.length < 2) :
    decodeBytes o short = .error (.truncated short.length) := by
  match short, h with
  | [], _ => rfl
  | [_], _ => rfl

/-- Settles O9: the two bytes carry the word, and fewer than two carry none. -/
theorem byteStreamDecode : Obligations.ByteStreamDecode :=
  ⟨decodeBytes_bytesOfWord, fun o _ => decodeBytes_of_short o⟩

end Sys2Proof
end

section
/-! PROOF. O56: the assembler (30_encoding.md R70, 41_frame.md R101, R102). A command with integer operands assembles
exactly when it is the integer form of a command. -/

namespace Sys2Proof

/-- A command as the assembler takes it: its operands as integers (R70). -/
def Instr.asmForm : Instr → AsmCmd
  | .nop => .nop
  | .crcinit => .crcinit
  | .crcbyte d => .crcbyte d.toNat
  | .fldwr f d => .fldwr f.index d.toNat
  | .build => .build
  | .rxwr k d => .rxwr k.val d.toNat
  | .verify => .verify

namespace Machine

/-! ## Operands in range are the operands of commands -/

theorem isByteValue_iff (v : Int) : isByteValue v = true ↔ 0 ≤ v ∧ v ≤ 255 := by
  simp [isByteValue]

/-- The integers in DATA's range are the values of the bytes (R70). -/
theorem isByteValue_iff_exists (v : Int) : isByteValue v = true ↔ ∃ d : Byte, v = d.toNat := by
  rw [isByteValue_iff]
  constructor
  · rintro ⟨hlo, hhi⟩
    exact ⟨BitVec.ofInt 8 v, by rw [BitVec.toNat_ofInt]; omega⟩
  · rintro ⟨d, rfl⟩
    omega

/-- The integers in the field selector's range are the indices of the fields (R63, R70). -/
theorem isFieldIndex_iff_exists (v : Int) : isFieldIndex v = true ↔ ∃ f : FieldReg, v = f.index := by
  constructor
  · intro h
    obtain ⟨hlo, hhi⟩ : 0 ≤ v ∧ v ≤ 3 := by simpa [isFieldIndex] using h
    obtain rfl | rfl | rfl | rfl : v = 0 ∨ v = 1 ∨ v = 2 ∨ v = 3 := by omega
    · exact ⟨.addr, rfl⟩
    · exact ⟨.cmd, rfl⟩
    · exact ⟨.sub, rfl⟩
    · exact ⟨.flag, rfl⟩
  · rintro ⟨f, rfl⟩
    cases f <;> rfl

/-- The integers in RXWR's range are the values of the indices (R63, R70). -/
theorem isRxIndex_iff_exists (v : Int) : isRxIndex v = true ↔ ∃ k : Fin 8, v = k.val := by
  constructor
  · intro h
    obtain ⟨hlo, hhi⟩ : 0 ≤ v ∧ v ≤ 7 := by simpa [isRxIndex] using h
    exact ⟨⟨v.toNat, by omega⟩, by simp [hlo]⟩
  · rintro ⟨k, rfl⟩
    simp only [isRxIndex, decide_eq_true_eq]
    omega

/-- A byte's value is read as that byte (R70). -/
@[simp] theorem byteOperand_toNat (d : Byte) : byteOperand d.toNat = .ok d := by
  have hrange := (isByteValue_iff_exists d.toNat).2 ⟨d, rfl⟩
  simp [byteOperand, hrange]

/-- A field's index is read as that field (R63, R70). -/
@[simp] theorem fieldOperand_index (f : FieldReg) : fieldOperand f.index = .ok f := by
  cases f <;> rfl

/-- An RX index's value is read as that index (R63, R70). -/
@[simp] theorem rxOperand_val (k : Fin 8) : rxOperand k.val = .ok k := by
  decide +revert

/-! ## Commands as their integer forms -/

/-- A command with integer operands is well formed exactly when it is the integer form of a command (R70). -/
theorem wf_iff_exists_asmForm (c : AsmCmd) : c.wf = true ↔ ∃ i : Instr, c = i.asmForm := by
  constructor
  · intro h
    cases c with
    | nop => exact ⟨.nop, rfl⟩
    | crcinit => exact ⟨.crcinit, rfl⟩
    | build => exact ⟨.build, rfl⟩
    | verify => exact ⟨.verify, rfl⟩
    | crcbyte d =>
      obtain ⟨d, rfl⟩ := (isByteValue_iff_exists d).1 h
      exact ⟨.crcbyte d, rfl⟩
    | fldwr f d =>
      obtain ⟨hf, hd⟩ := Bool.and_eq_true_iff.1 h
      obtain ⟨f, rfl⟩ := (isFieldIndex_iff_exists f).1 hf
      obtain ⟨d, rfl⟩ := (isByteValue_iff_exists d).1 hd
      exact ⟨.fldwr f d, rfl⟩
    | rxwr k d =>
      obtain ⟨hk, hd⟩ := Bool.and_eq_true_iff.1 h
      obtain ⟨k, rfl⟩ := (isRxIndex_iff_exists k).1 hk
      obtain ⟨d, rfl⟩ := (isByteValue_iff_exists d).1 hd
      exact ⟨.rxwr k d, rfl⟩
  · rintro ⟨i, rfl⟩
    have hbyte (d : Byte) : isByteValue d.toNat = true := (isByteValue_iff_exists _).2 ⟨d, rfl⟩
    have hfield (f : FieldReg) : isFieldIndex f.index = true := (isFieldIndex_iff_exists _).2 ⟨f, rfl⟩
    have hrx (k : Fin 8) : isRxIndex k.val = true := (isRxIndex_iff_exists _).2 ⟨k, rfl⟩
    cases i <;> simp [Instr.asmForm, AsmCmd.wf, hbyte, hfield, hrx]

/-- The assembler reads the integer form of a command as that command (R70). -/
@[simp] theorem toInstr_asmForm (i : Instr) : AsmCmd.toInstr i.asmForm = .ok i := by
  cases i <;> simp [Instr.asmForm, AsmCmd.toInstr, Except.map, Except.bind]

/-- The assembler reads no command that is not well formed: each operand's check is made (R70). -/
theorem wf_of_toInstr_ok {c : AsmCmd} {i : Instr} (h : AsmCmd.toInstr c = .ok i) : c.wf = true := by
  cases c with
  | nop | crcinit | build | verify => rfl
  | crcbyte d =>
    simp only [AsmCmd.toInstr, byteOperand] at h
    split_ifs at h with hd
    · exact hd
    · cases h
  | fldwr f d =>
    simp only [AsmCmd.toInstr, fieldOperand, byteOperand] at h
    split_ifs at h with hf hd
    · exact Bool.and_eq_true_iff.2 ⟨hf, hd⟩
    all_goals cases h
  | rxwr k d =>
    simp only [AsmCmd.toInstr, rxOperand, byteOperand] at h
    split_ifs at h with hk hd
    · exact Bool.and_eq_true_iff.2 ⟨hk, hd⟩
    all_goals cases h

/-- A command assembles to a word exactly when it is the integer form of the command whose word that is (R70). -/
theorem assemble_eq_ok_iff (c : AsmCmd) (w : CmdWord) :
    AsmCmd.assemble c = .ok w ↔ ∃ i : Instr, c = i.asmForm ∧ encode i = w := by
  constructor
  · intro h
    unfold AsmCmd.assemble at h
    cases hc : AsmCmd.toInstr c with
    | error e => simp [hc, Except.map] at h
    | ok i =>
      obtain ⟨j, rfl⟩ := (wf_iff_exists_asmForm c).1 (wf_of_toInstr_ok hc)
      exact ⟨j, rfl, by simpa [Except.map] using h⟩
  · rintro ⟨i, rfl, rfl⟩
    simp [AsmCmd.assemble, Except.map]

/-! ## The word's number -/

/-- The number of a command's word: each operand stands whole in its place (R62, R70). -/
theorem encode_toNat (i : Instr) :
    (encode i).toNat = 4096 * (Laws.rowOpcode i).toNat + 256 * i.selector.toNat + i.data.toNat := by
  rw [toNat_eq_fields, opOf_encode, selOf_encode, dataOf_encode]

/-- FRAME's inputs meet the range check of `buildCommand` before words are built from them (R101, R102). -/
theorem frame_words_of_out_of_range {a c s f : Int}
    (h : ¬((0 ≤ a ∧ a ≤ 255) ∧ (0 ≤ c ∧ c ≤ 255) ∧ (0 ≤ s ∧ s ≤ 255) ∧ (0 ≤ f ∧ f ≤ 255))) :
    AsmStmt.words (.frame a c s f) = .error (.rejected (.format a c s f)) := by
  have hcheck : buildCommandChecked a c s f = .error (.format a c s f) := by
    rw [buildCommandChecked, if_neg]
    simpa only [Bool.and_eq_true, isByteValue_iff, and_assoc] using h
  rw [AsmStmt.words, hcheck]

/-- Settles O56: the well-formed commands are the integer forms of commands, and their words are those commands'. -/
theorem assemblerNeverTruncates : Obligations.AssemblerNeverTruncates := by
  refine ⟨fun c => ?_, fun c w h => ?_, fun a c s f => frame_words_of_out_of_range⟩
  · simp only [wf_iff_exists_asmForm, assemble_eq_ok_iff]
    exact ⟨fun ⟨i, hi⟩ => ⟨encode i, i, hi, rfl⟩, fun ⟨_, i, hi, _⟩ => ⟨i, hi⟩⟩
  · obtain ⟨i, rfl, rfl⟩ := (assemble_eq_ok_iff c w).1 h
    refine ⟨legal_of_decodeWord_ok (decodeWord_encode i), ?_⟩
    rw [encode_toNat]
    cases i with
    | nop | crcinit | build | verify => rfl
    | crcbyte d => simp [Instr.asmForm, Laws.rowOpcode, Instr.selector, Instr.data]
    | fldwr f d => cases f <;> simp [Instr.asmForm, Laws.rowOpcode, Instr.selector, Instr.data, FieldReg.index]
    | rxwr k d =>
      have hk : k.val % 16 = k.val := Nat.mod_eq_of_lt (by omega)
      simp [Instr.asmForm, Laws.rowOpcode, Instr.selector, Instr.data, hk]

end Machine

end Sys2Proof
end

section
/-! PROOF. O57: the pseudo-instructions CRC and RXLOAD (30_encoding.md R71), as runs of the commands they stand for. -/

namespace Sys2Proof.Machine

/-- The spec's step over a command's word is what the command does (R146). -/
@[simp] theorem commandStep_encode (b : Block) (i : Instr) : commandStep b (encode i) = blockAfter i b :=
  commandStep_of_ok (decodeWord_encode i) b

/-- A run of CRCBYTE words feeds their bytes to CRCREG and changes nothing else (R83, R87). -/
theorem runWords_crcbytes (b : Block) (p : List Byte) :
    runWords b (p.map fun d => encode (.crcbyte d)) = b.setCrcreg (crcRaw b.crcreg p) := by
  induction p generalizing b with
  | nil => rfl
  | cons d p ih =>
    rw [List.map_cons, runWords_cons, commandStep_encode, ih]
    rfl

/-- CRC leaves in CRCREG the raw CRC of its bytes from the seed, whatever was there (R71). -/
theorem runWords_crcWords (b : Block) (p : List Byte) :
    runWords b (crcWords p) = b.setCrcreg (crcRaw Config.crcSeed p) := by
  rw [crcWords, runWords_cons, commandStep_encode, runWords_crcbytes]
  rfl

/-- RXWR as one update: a byte of RX, and bits 1:0 of STATUS cleared (R126). -/
theorem Block.rxwr_eq_update (k : Fin 8) (d : Byte) (b : Block) :
    b.rxwr k d = { b with rx := b.rx.set k.val d k.isLt, status := b.status &&& 0xFC#8 } := by
  have hstatus : statusClear .chkerr (statusClear .valid b.status) = b.status &&& 0xFC#8 := by
    simp [statusClear, StatusBit.mask, BitVec.and_assoc]
  rw [← hstatus]
  rfl

/-- Eight bytes written one after another, each at its index, are the vector of them. -/
theorem set_all (r v : Vector Byte 8) :
    (((((((r.set 0 v[0]).set 1 v[1]).set 2 v[2]).set 3 v[3]).set 4 v[4]).set 5 v[5]).set 6 v[6]).set 7 v[7] = v := by
  ext n hn
  match n with
  | 0 | 1 | 2 | 3 | 4 | 5 | 6 | 7 => simp
  | n + 8 => omega

/-- RXLOAD loads RX with its bytes and clears both verdict bits (R71). -/
theorem runWords_rxloadWords (b : Block) (v : Vector Byte 8) :
    runWords b (rxloadWords v) = { b with rx := v, status := b.status &&& 0xFC#8 } := by
  simp only [rxloadWords, runWords_cons, runWords_nil, commandStep_encode, blockAfter, Block.rxwr_eq_update,
    BitVec.and_assoc, BitVec.and_self]
  exact congrArg (fun r => { b with rx := r, status := b.status &&& 0xFC#8 }) (set_all b.rx v)

/-- Settles O57: CRCINIT and the CRCBYTEs feed the bytes from the seed; the eight RXWRs write every byte of RX. -/
theorem crcAndRxloadPseudoInstructions : Obligations.CrcAndRxloadPseudoInstructions := by
  refine ⟨fun b p => ?_, runWords_rxloadWords⟩
  rw [runWords_crcWords]
  exact ⟨rfl, rfl⟩

end Sys2Proof.Machine
end

section
/-! PROOF. O22, O23, O24: the bit and byte steps of the CRC (40_crc.md R81, R82, R90, R91). A bit step is linear over
GF(2), and so is a loop of them; the byte can be XORed into the register before the loop instead of bit by bit. -/

namespace Sys2Proof.Machine

/-! ## The bit step -/

/-- The bit step shifts the register and adds the polynomial when the bit that leaves differs from the data bit
(R81). -/
theorem crcBit_eq_xor (r : Word) (x : Bool) :
    crcBit r x = (r >>> 1) ^^^ (if (r.getLsbD 0 ^^ x) = true then Config.crcPoly else 0#16) := by
  unfold crcBit
  split <;> simp

/-- The bit step is linear in the register and the data bit together (R90). -/
theorem crcBit_xor (r₁ r₂ : Word) (x₁ x₂ : Bool) :
    crcBit (r₁ ^^^ r₂) (x₁ ^^ x₂) = crcBit r₁ x₁ ^^^ crcBit r₂ x₂ := by
  have hout : ((r₁ ^^^ r₂).getLsbD 0 ^^ (x₁ ^^ x₂)) = ((r₁.getLsbD 0 ^^ x₁) ^^ (r₂.getLsbD 0 ^^ x₂)) := by
    simp only [BitVec.getLsbD_xor, Bool.xor_assoc, Bool.xor_left_comm]
  have hselect (p q : Bool) :
      (if (p ^^ q) = true then Config.crcPoly else 0#16) =
        (if p = true then Config.crcPoly else 0#16) ^^^ (if q = true then Config.crcPoly else 0#16) := by
    cases p <;> cases q <;> rfl
  simp only [crcBit_eq_xor, hout, hselect, BitVec.ushiftRight_xor_distrib]
  ac_rfl

/-- A data bit that equals the bit that leaves makes the step a mere shift (R81). -/
theorem crcBit_getLsbD_self (r : Word) : crcBit r (r.getLsbD 0) = r >>> 1 := by
  simp [crcBit]

/-- The top bit after a step tells whether the polynomial was added, as the shift clears it (R81). -/
theorem crcBit_topBit (r : Word) (x : Bool) : (crcBit r x).getLsbD 15 = (r.getLsbD 0 ^^ x) := by
  have hshift : (r >>> 1).getLsbD 15 = false := by
    rw [BitVec.getLsbD_ushiftRight, BitVec.getLsbD_of_ge _ _ (by decide)]
  rw [crcBit_eq_xor, BitVec.getLsbD_xor, hshift, Bool.false_xor]
  cases (r.getLsbD 0 ^^ x) <;> rfl

/-- A bit step loses nothing: its top bit gives back the bit that left (R90). -/
theorem crcBit_injective (x : Bool) : Function.Injective fun r : Word => crcBit r x := by
  intro r r' h
  replace h : crcBit r x = crcBit r' x := h
  have hout : r.getLsbD 0 = r'.getLsbD 0 := by
    simpa only [crcBit_topBit, Bool.xor_left_inj] using congrArg (BitVec.getLsbD · 15) h
  have hrest : r >>> 1 = r' >>> 1 := by
    simpa only [crcBit_eq_xor, hout, BitVec.xor_left_inj] using h
  refine BitVec.eq_of_getLsbD_eq fun k hk => ?_
  cases k with
  | zero => exact hout
  | succ k => simpa [Nat.add_comm] using congrArg (BitVec.getLsbD · k) hrest

/-! ## The byte step -/

theorem crcByteLoop_xor (n : Nat) (r₁ r₂ : Word) (b₁ b₂ : Byte) :
    crcByteLoop n (r₁ ^^^ r₂) (b₁ ^^^ b₂) = crcByteLoop n r₁ b₁ ^^^ crcByteLoop n r₂ b₂ := by
  induction n generalizing r₁ r₂ b₁ b₂ with
  | zero => rfl
  | succ n ih => rw [crcByteLoop, BitVec.getLsbD_xor, crcBit_xor, BitVec.ushiftRight_xor_distrib, ih]; rfl

/-- The byte step is linear in the register and the byte together (R90). -/
theorem crcByte_xor (r₁ r₂ : Word) (b₁ b₂ : Byte) :
    crcByte (r₁ ^^^ r₂) (b₁ ^^^ b₂) = crcByte r₁ b₁ ^^^ crcByte r₂ b₂ :=
  crcByteLoop_xor 8 r₁ r₂ b₁ b₂

theorem crcByteLoop_injective (n : Nat) (b : Byte) : Function.Injective fun r : Word => crcByteLoop n r b := by
  induction n generalizing b with
  | zero => exact Function.injective_id
  | succ n ih => exact (ih (b >>> 1)).comp (crcBit_injective (b.getLsbD 0))

/-- For each byte the step is a bijection on the register (R90). -/
theorem crcByte_bijective (b : Byte) : Function.Bijective fun r : Word => crcByte r b :=
  Finite.injective_iff_bijective.1 (crcByteLoop_injective 8 b)

/-- XORing the byte into the register first leaves, after a round, what the bit step leaves and the bits not yet
consumed (R91). -/
theorem crcBit_xor_byte (r : Word) (b : Byte) :
    crcBit (r ^^^ b.setWidth 16) false = crcBit r (b.getLsbD 0) ^^^ (b >>> 1).setWidth 16 := by
  have hbit : (b.setWidth 16).getLsbD 0 = b.getLsbD 0 := by simp
  have hshift : b.setWidth 16 >>> 1 = (b >>> 1).setWidth 16 := by
    ext k hk
    simp
  calc crcBit (r ^^^ b.setWidth 16) false
    _ = crcBit (r ^^^ b.setWidth 16) (b.getLsbD 0 ^^ b.getLsbD 0) := by rw [Bool.xor_self]
    _ = crcBit r (b.getLsbD 0) ^^^ crcBit (b.setWidth 16) (b.getLsbD 0) := crcBit_xor ..
    _ = crcBit r (b.getLsbD 0) ^^^ (b >>> 1).setWidth 16 := by rw [← hbit, crcBit_getLsbD_self, hshift]

theorem iterate_crcBit_xor_byte (n : Nat) (r : Word) (b : Byte) :
    (crcBit · false)^[n] (r ^^^ b.setWidth 16) = crcByteLoop n r b ^^^ (b >>> n).setWidth 16 := by
  induction n generalizing r b with
  | zero => rfl
  | succ n ih =>
    rw [Function.iterate_succ_apply, crcBit_xor_byte, ih, ← BitVec.shiftRight_add, Nat.add_comm 1 n]
    rfl

/-- The byte step XORs the byte in and shifts eight times (R91). -/
theorem crcByte_eq_iterate (r : Word) (b : Byte) : crcByte r b = (crcBit · false)^[8] (r ^^^ b.setWidth 16) := by
  have hconsumed : b >>> 8 = 0#8 := BitVec.ushiftRight_eq_zero (Nat.le_refl 8)
  rw [iterate_crcBit_xor_byte, hconsumed]
  exact BitVec.xor_zero.symm

/-- A data byte acts as the same bits of the register do (R91). -/
theorem crcByte_eq_zero_byte (r : Word) (b : Byte) : crcByte r b = crcByte (r ^^^ b.setWidth 16) 0#8 := by
  rw [crcByte_eq_iterate, crcByte_eq_iterate, BitVec.setWidth_zero, BitVec.xor_zero]

/-- Settles O22: the loop's byte, shifted `k` times, has bit `k` of the byte in front. -/
theorem byteStepIsEightBitSteps : Obligations.ByteStepIsEightBitSteps := by
  refine ⟨fun _ _ => rfl, fun r b => ?_⟩
  simp only [crcByte, crcByteLoop, BitVec.getLsbD_ushiftRight]

/-- Settles O23: the rounds are bit steps with data bit 0, eight of them. -/
theorem equivalentByteStep : Obligations.EquivalentByteStep := by
  intro r b
  have hround (t : Word) :
      (if t.getLsbD 0 = true then (t >>> 1) ^^^ 0x8408#16 else t >>> 1) = crcBit t false := by
    rw [crcBit, Bool.xor_false]
    rfl
  simp only [hround, List.foldl_const, List.length_range, crcByte_eq_iterate]

/-- Settles O24: linearity of the bit step carries over to the loop, and so does injectivity. -/
theorem byteStepLinear : Obligations.ByteStepLinear := by
  refine ⟨crcBit_xor, crcByte_xor, fun r b => ?_, crcByte_bijective⟩
  rw [← crcByte_xor, BitVec.xor_zero, BitVec.zero_xor]

end Sys2Proof.Machine
end

section
/-! PROOF. O20, O21: CRCINIT and CRCBYTE on the machine (40_crc.md R86, R87), the byte step on the two bytes of the
register, and its fixed points at byte 0. -/

namespace Sys2Proof

/-! ## The words of one opcode -/

/-- The legal words are the commands' words (R62, R64). -/
theorem legal_iff_exists_encode (w : CmdWord) : legal w = true ↔ ∃ i, encode i = w := by
  constructor
  · intro h
    obtain ⟨i, hi, -⟩ := Machine.decodes_of_legal h
    exact ⟨i, (decodeWord_eq_ok_iff w i).1 hi⟩
  · rintro ⟨i, rfl⟩
    exact legal_of_decodeWord_ok (decodeWord_encode i)

/-- Under OP = 1 only CRCINIT's word is legal (R86). -/
theorem legal_eq_false_of_op_crcinit {w : CmdWord} (hop : opOf w = 0x1#4) (hw : w ≠ 0x1000#16) : legal w = false := by
  rw [Bool.eq_false_iff, ne_eq, legal_iff_exists_encode]
  rintro ⟨i, rfl⟩
  rw [opOf_encode] at hop
  cases i with
  | crcinit => exact hw rfl
  | nop | crcbyte _ | fldwr _ _ | build | rxwr _ _ | verify => simp [Laws.rowOpcode] at hop

/-- Under OP = 2 only CRCBYTE's words are legal, and their SEL is zero (R87). -/
theorem legal_eq_false_of_op_crcbyte {w : CmdWord} (hop : opOf w = 0x2#4) (hsel : selOf w ≠ 0#4) :
    legal w = false := by
  rw [Bool.eq_false_iff, ne_eq, legal_iff_exists_encode]
  rintro ⟨i, rfl⟩
  rw [opOf_encode] at hop
  cases i with
  | crcbyte d => exact hsel (selOf_encode (.crcbyte d))
  | nop | crcinit | fldwr _ _ | build | rxwr _ _ | verify => simp [Laws.rowOpcode] at hop

/-- CRCBYTE's word as R87 writes it. -/
theorem encode_crcbyte (d : Byte) : encode (.crcbyte d) = 0x2000#16 ||| d.setWidth 16 := by
  simp [encode, packWord]

namespace Machine

/-- The machine runs a presented command's word as the command (R145, R146). -/
theorem step_encode (s : State) (i : Instr) :
    step { s with pending := .command (encode i) :: s.pending } = exec i s := by
  rw [step_command rfl, commandStep_encode, exec_eq]
  rfl

/-- Settles O20: CRCINIT's word is 0x1000, and no other word under its opcode is a command's. -/
theorem crcinitLoadsSeed : Obligations.CrcinitLoadsSeed := by
  refine ⟨fun s => ⟨rfl, step_encode s .crcinit⟩, fun _ => legal_eq_false_of_op_crcinit, rfl, fun b => ?_, by decide⟩
  rw [Block.crcout_eq]
  exact (by decide : ~~~0xFFFF#16 = 0x0000#16)

/-! ## The byte step on the two bytes of the register -/

@[simp] theorem lowByte_xor (v w : Word) : lowByte (v ^^^ w) = lowByte v ^^^ lowByte w := BitVec.extractLsb'_xor

@[simp] theorem highByte_xor (v w : Word) : highByte (v ^^^ w) = highByte v ^^^ highByte w := BitVec.extractLsb'_xor

@[simp] theorem lowByte_setWidth (d : Byte) : lowByte (d.setWidth 16) = d :=
  (BitVec.extractLsb'_setWidth_of_le (by decide)).trans BitVec.extractLsb'_eq_self

@[simp] theorem highByte_setWidth (d : Byte) : highByte (d.setWidth 16) = 0#8 := by
  ext k hk
  simp [highByte]

/-- A word is the XOR of its bytes, each in its place: no bit is in both (R42). -/
theorem joinBytes_eq_xor (hi lo : Byte) : joinBytes hi lo = lo.setWidth 16 ^^^ hi.setWidth 16 <<< 8 := by
  ext k hk
  by_cases hk8 : k < 8
  · simp [joinBytes, hk8]
  · simp [joinBytes, hk8, BitVec.getLsbD_of_ge lo k (Nat.not_lt.1 hk8)]

/-- Eight shifts bring the high byte down as it is, since no bit of it leaves the register (R81). -/
theorem crcByte_highByte_zero (hi : Byte) : crcByte (hi.setWidth 16 <<< 8) 0#8 = hi.setWidth 16 := by
  decide +kernel +revert

/-- A word XORed into the register meets a zero byte as its low byte, fed, and its high byte, brought down (R90, R91). -/
theorem crcByte_xor_word (r w : Word) :
    crcByte (r ^^^ w) 0#8 = crcByte r (lowByte w) ^^^ (highByte w).setWidth 16 := by
  have hword : w = (lowByte w).setWidth 16 ^^^ (highByte w).setWidth 16 <<< 8 := by
    rw [← joinBytes_eq_xor, joinBytes_high_low]
  calc crcByte (r ^^^ w) 0#8
    _ = crcByte (r ^^^ (lowByte w).setWidth 16 ^^^ (highByte w).setWidth 16 <<< 8) (0#8 ^^^ 0#8) := by
      rw [BitVec.xor_assoc, ← hword, BitVec.xor_self]
    _ = crcByte r (lowByte w) ^^^ (highByte w).setWidth 16 := by
      rw [crcByte_xor, crcByte_highByte_zero, ← crcByte_eq_zero_byte]

/-- The bytes of a fixed point of the step at byte 0, from what its low byte alone leaves. -/
theorem bytes_of_crcByte_zero_fixed {r : Word} (h : crcByte r 0#8 = r) :
    highByte (crcByte 0#16 (lowByte r)) = highByte r ∧
      lowByte (crcByte 0#16 (lowByte r)) = lowByte r ^^^ highByte r := by
  have himage : crcByte 0#16 (lowByte r) = r ^^^ (highByte r).setWidth 16 := by
    refine (BitVec.xor_left_inj ((highByte r).setWidth 16)).1 ?_
    rw [← crcByte_xor_word, BitVec.zero_xor, h, BitVec.xor_assoc, BitVec.xor_self, BitVec.xor_zero]
  simp [himage]

/-- The step at byte 0 has two fixed points (R87, log entry 7). -/
theorem crcByte_zero_fixed_iff (r : Word) : crcByte r 0#8 = r ↔ r = 0x0000#16 ∨ r = 0xF80F#16 := by
  constructor
  · intro h
    obtain ⟨hhigh, hlow⟩ := bytes_of_crcByte_zero_fixed h
    have hall : ∀ lo : Byte, lowByte (crcByte 0#16 lo) = lo ^^^ highByte (crcByte 0#16 lo) →
        lo = 0x00#8 ∨ lo = 0x0F#8 := by decide +kernel
    rw [← hhigh] at hlow
    rw [← joinBytes_high_low r, ← hhigh]
    obtain hlo | hlo := hall _ hlow <;> rw [hlo]
    · exact .inl (by decide)
    · exact .inr (by decide)
  · rintro (rfl | rfl) <;> decide

/-- Settles O21: CRCBYTE's word has SEL zero; the two fixed points follow from the low byte, and the fixed values by
evaluation. -/
theorem crcbyteAdvances : Obligations.CrcbyteAdvances := by
  refine ⟨fun s d => ⟨rfl, ?_⟩, fun _ => legal_eq_false_of_op_crcbyte, crcByte_zero_fixed_iff, by decide, by decide,
    by decide, fun b hb => ?_⟩
  · rw [← encode_crcbyte, step_encode]
    rfl
  · rw [Block.crcout_eq, hb]
    rfl

end Machine

end Sys2Proof
end

section
/-! PROOF. O26, O27: the CRC register over a run of words and over a message with its CRC (40_crc.md R88, R93). -/

namespace Sys2Proof.Machine

/-! ## The register over a run -/

theorem bytesFed_cons_crcbyte {w : CmdWord} {d : Byte} (h : decodeWord w = .ok (.crcbyte d)) (ws : List CmdWord) :
    bytesFed (w :: ws) = d :: bytesFed ws := by
  simp [bytesFed, h]

theorem bytesFed_cons_other {w : CmdWord} (h : ∀ d, decodeWord w ≠ .ok (.crcbyte d)) (ws : List CmdWord) :
    bytesFed (w :: ws) = bytesFed ws := by
  refine List.filterMap_cons_none ?_
  split
  · next d hd => exact absurd hd (h d)
  · rfl

/-- No word but CRCINIT and CRCBYTE writes CRCREG, illegal words included (R23, R147). -/
theorem commandStep_crcreg_of_other {w : CmdWord} (hinit : decodeWord w ≠ .ok .crcinit)
    (hbyte : ∀ d, decodeWord w ≠ .ok (.crcbyte d)) (b : Block) : (commandStep b w).crcreg = b.crcreg := by
  obtain ⟨-, i, hd, hstep⟩ | ⟨-, hstep⟩ := commandStep_cases w
  · obtain rfl | ⟨d, rfl⟩ | hsame := blockAfter_crcreg_cases i
    · exact absurd hd hinit
    · exact absurd hd (hbyte d)
    · rw [hstep, hsame]
  · rw [hstep, Block.raise_crcreg]

/-- A run without CRCINIT advances CRCREG by the bytes fed (R83, R88). -/
theorem runWords_crcreg (b : Block) (ws : List CmdWord) (h : ∀ w ∈ ws, decodeWord w ≠ .ok .crcinit) :
    (runWords b ws).crcreg = crcRaw b.crcreg (bytesFed ws) := by
  induction ws generalizing b with
  | nil => rfl
  | cons w ws ih =>
    obtain ⟨hw, hws⟩ := List.forall_mem_cons.1 h
    rw [runWords_cons, ih _ hws]
    by_cases hbyte : ∃ d, decodeWord w = .ok (.crcbyte d)
    · obtain ⟨d, hd⟩ := hbyte
      rw [bytesFed_cons_crcbyte hd, commandStep_of_ok hd]
      rfl
    · rw [not_exists] at hbyte
      rw [bytesFed_cons_other hbyte, commandStep_crcreg_of_other hw hbyte]

/-- Settles O26: CRCINIT loads the seed, the run advances it by the bytes fed, and the read port shows its complement. -/
theorem streamedCrc : Obligations.StreamedCrc := by
  intro b ws hws after
  have hcrcreg : after.crcreg = crcRaw 0xFFFF#16 (bytesFed ws) := runWords_crcreg (commandStep b 0x1000#16) ws hws
  obtain ⟨-, -, hcrcout⟩ := readMap
  exact ⟨hcrcreg, hcrcout after (bytesFed ws) hcrcreg⟩

/-! ## The residue -/

/-- Two bytes are XORed into the register at once: the second meets the high byte when that has come down (R91). -/
theorem crcRaw_wordToBytes (r w : Word) : crcRaw r (wordToBytes w) = crcRaw (r ^^^ w) [0#8, 0#8] := by
  simp only [wordToBytes_eq, crcRaw_cons, crcRaw_nil]
  rw [crcByte_xor_word, ← crcByte_eq_zero_byte]

/-- A message followed by its CRC leaves what two zero bytes make of 0xFFFF, whatever the message (R93). -/
theorem crcRaw_append_crc16 (p : List Byte) : crcRaw Config.crcSeed (p ++ wordToBytes (crc16 p)) = 0xF0B8#16 := by
  have hones : crcRaw Config.crcSeed p ^^^ crc16 p = 0xFFFF#16 := by
    rw [crc16, ← BitVec.xor_assoc, BitVec.xor_self, BitVec.zero_xor]
    rfl
  rw [crcRaw_append, crcRaw_wordToBytes, hones]
  decide +kernel

/-- Settles O27: the residue of the function is CRCREG after CRC, and its complement is the CRC. -/
theorem residueOfCheckedMessage : Obligations.ResidueOfCheckedMessage := by
  refine fun p => ⟨crcRaw_append_crc16 p, ?_, fun b => ?_⟩
  · rw [crc16_eq, crcRaw_append_crc16]
    rfl
  · rw [runWords_crcWords, crcRaw_append_crc16]
    rfl

end Sys2Proof.Machine
end

section
/-! PROOF. O28, O33: the frame functions (41_frame.md R100, R101, R103, R109). A wire frame is a message followed by its
CRC, and every such frame checks (42_verify.md R121). -/

namespace Sys2Proof.Machine

/-! ## The range check on integers -/

/-- The values of bytes pass the range check and are read as those bytes (R100, R101). -/
theorem buildCommandChecked_toNat (a c s f : Byte) :
    buildCommandChecked a.toNat c.toNat s.toNat f.toNat = .ok (buildCommand a c s f) := by
  have hrange (d : Byte) : isByteValue d.toNat = true := (isByteValue_iff_exists d.toNat).2 ⟨d, rfl⟩
  simp [buildCommandChecked, hrange]

/-- One input outside a byte's range makes the whole call fail (R101). -/
theorem buildCommandChecked_of_out_of_range {a c s f : Int}
    (h : ¬((0 ≤ a ∧ a ≤ 255) ∧ (0 ≤ c ∧ c ≤ 255) ∧ (0 ≤ s ∧ s ≤ 255) ∧ (0 ≤ f ∧ f ≤ 255))) :
    buildCommandChecked a c s f = .error (.format a c s f) := by
  rw [buildCommandChecked, if_neg]
  simpa only [Bool.and_eq_true, isByteValue_iff, and_assoc] using h

/-- Settles O28: the layout is the functions' own, and the range check passes exactly the values of bytes. -/
theorem commandFrameLayout : Obligations.CommandFrameLayout :=
  ⟨fun a c s f => ⟨buildCommand_eq a c s f, buildCommandChecked_toNat a c s f, rfl⟩,
    fun _ _ _ _ => buildCommandChecked_of_out_of_range⟩

/-! ## Wire frames check -/

/-- A message followed by its CRC checks and gives the message back (R121, R130). -/
theorem verifyAndStrip_append_crc16 (p : List Byte) : verifyAndStrip (p ++ wordToBytes (crc16 p)) = .ok p := by
  obtain ⟨htake, hdrop⟩ := take_drop_tail p (lowByte (crc16 p)) (highByte (crc16 p))
  simp only [verifyAndStrip, wordToBytes_eq, htake, hdrop, if_true]

/-- Settles O33: a wire frame is the command frame followed by its CRC. -/
theorem everyWireFrameChecks : Obligations.EveryWireFrameChecks :=
  fun a c s f => ⟨verifyAndStrip_append_crc16 (buildCommand a c s f), crcRaw_append_crc16 (buildCommand a c s f)⟩

end Sys2Proof.Machine
end

section
/-! PROOF. O29, O30: FLDWR and BUILD on the machine (41_frame.md R104, R105). -/

namespace Sys2Proof

/-! ## The words of the two opcodes -/

/-- Under OP = 3 a word with SEL[3:2] ≠ 0 is illegal (R104). -/
theorem legal_eq_false_of_op_fldwr {w : CmdWord} (hop : opOf w = 0x3#4) (hsel : w.extractLsb' 10 2 ≠ 0#2) :
    legal w = false := by
  rw [Bool.eq_false_iff, ne_eq, legal_iff_fields]
  simp [hop, hsel]

/-- Under OP = 4 only BUILD's word is legal (R105). -/
theorem legal_eq_false_of_op_build {w : CmdWord} (hop : opOf w = 0x4#4) (hw : w ≠ 0x4000#16) : legal w = false := by
  have hfields : ¬(selOf w = 0#4 ∧ dataOf w = 0#8) := fun hzero => hw ((word_eq_iff_fields w 0x4000#16).2 ⟨hop, hzero⟩)
  rw [Bool.eq_false_iff, ne_eq, legal_iff_fields]
  simpa [hop] using hfields

namespace Machine

/-! ## FLDWR -/

/-- FLDWR clears TXRDY and leaves the other flags (R104). -/
theorem Block.fldwr_flags (f : FieldReg) (d : Byte) (b : Block) :
    (b.fldwr f d).txrdy = false ∧ (b.fldwr f d).valid = b.valid ∧ (b.fldwr f d).chkerr = b.chkerr ∧
      (b.fldwr f d).illegal = b.illegal := by
  simp [Block.txrdy, Block.valid, Block.chkerr, Block.illegal]

/-- Settles O29: the four words are FLDWR's for the four fields, and FLDWR writes its field and clears bit 3. -/
theorem fldwrWritesField : Obligations.FldwrWritesField := by
  refine ⟨fun s d => ⟨rfl, rfl, rfl, rfl⟩, fun s d => ?_, fun s t f d h => ?_, fun _ => legal_eq_false_of_op_fldwr⟩
  · exact ⟨step_encode s (.fldwr .addr d), step_encode s (.fldwr .cmd d), step_encode s (.fldwr .sub d),
      step_encode s (.fldwr .flag d)⟩
  · obtain rfl : s.setBlock (s.block.fldwr f d) = t := Host.Outcome.next.inj h
    exact s.block.fldwr_flags f d

/-! ## BUILD -/

/-- BUILD sets TXRDY and leaves the other flags (R105). -/
theorem Block.build_flags (b : Block) :
    b.build.txrdy = true ∧ b.build.valid = b.valid ∧ b.build.chkerr = b.chkerr ∧ b.build.illegal = b.illegal := by
  simp [Block.txrdy, Block.valid, Block.chkerr, Block.illegal]

/-- BUILD twice is BUILD: it does not write the fields it reads (R105). -/
theorem Block.build_build (b : Block) : b.build.build = b.build :=
  blockAfter_idem (i := .build) (by simp) b

/-- After BUILD's word TX is the wire frame of the fields (R105). -/
theorem commandStep_build_tx (b : Block) :
    (commandStep b 0x4000#16).tx.toList = wireFrame b.addr b.cmd b.sub b.flag :=
  congrArg (fun b' : Block => b'.tx.toList) (commandStep_encode b .build)

/-- Settles O30: the block written out is the block after BUILD, and the examples are wire frames evaluated. -/
theorem buildWritesWireImage : Obligations.BuildWritesWireImage := by
  refine ⟨?_, fun _ => legal_eq_false_of_op_build, ?_, fun b haddr hcmd hsub hflag => ?_⟩
  · intro s c built
    have hbuilt : built = s.block.build := rfl
    rw [hbuilt]
    refine ⟨rfl, step_encode s .build, ?_, s.block.build_flags⟩
    exact congrArg (fun b => Host.Outcome.next (s.setBlock b)) s.block.build_build
  · rw [commandStep_build_tx]
    decide +kernel
  · rw [commandStep_build_tx, haddr, hcmd, hsub, hflag]
    decide +kernel

end Machine

end Sys2Proof
end

section
/-! PROOF. O31, O32: the wire image over runs of words (41_frame.md R106, R107). -/

namespace Sys2Proof.Machine

/-! ## After BUILD and until a FLDWR (O31) -/

/-- No word but a FLDWR changes the frame builder's part as BUILD left it: another BUILD reads the same fields, and
illegal words do not reach it (R106, R147). -/
theorem commandStep_keeps_built {w : CmdWord} (hw : ∀ f d, decodeWord w ≠ .ok (.fldwr f d)) {b c : Block}
    (h : c.framePart = b.build.framePart) : (commandStep c w).framePart = b.build.framePart := by
  obtain ⟨-, i, hd, hstep⟩ | ⟨-, hstep⟩ := commandStep_cases w <;> rw [hstep]
  · obtain ⟨f, d, rfl⟩ | rfl | hsame := blockAfter_framePart_cases i
    · exact absurd hd (hw f d)
    · exact (blockAfter_framePart_congr .build c b.build h).trans (blockAfter_framePart_idem .build b)
    · exact (hsame c).trans h
  · exact (Block.raise_framePart (by decide) c).trans h

/-- A run without FLDWR leaves the frame builder's part as BUILD left it (R106). -/
theorem runWords_keeps_built {ws : List CmdWord} (hws : ∀ w ∈ ws, ∀ f d, decodeWord w ≠ .ok (.fldwr f d))
    {b c : Block} (h : c.framePart = b.build.framePart) : (runWords c ws).framePart = b.build.framePart := by
  induction ws generalizing c with
  | nil => exact h
  | cons w ws ih =>
    obtain ⟨hw, hws⟩ := List.forall_mem_cons.1 hws
    exact ih hws (commandStep_keeps_built hw h)

/-- Settles O31: the run leaves the frame builder's part as BUILD left it, and after BUILD TX is current. -/
theorem wireImageStaysCurrent : Obligations.WireImageStaysCurrent := by
  intro b ws hws after
  have hpart : after.framePart = b.build.framePart :=
    runWords_keeps_built hws (congrArg Block.framePart (commandStep_encode b .build))
  obtain ⟨hfield, -, hrdy⟩ := Block.framePart_eq_iff.1 hpart
  obtain ⟨hbuilt, -⟩ := b.build_flags
  have hafter : after.txrdy = true := hrdy.trans hbuilt
  exact ⟨hafter, (b.frameOk_build.of_framePart_eq hpart).txCurrent hafter, hfield .addr, hfield .cmd, hfield .sub,
    hfield .flag⟩

/-! ## FRAME (O32) -/

/-- A bit set after it was cleared is as if it had not been cleared. -/
theorem statusSet_statusClear (k : StatusBit) (v : Byte) : statusSet k (statusClear k v) = statusSet k v := by
  refine status_ext (fun j => ?_) (by simp)
  by_cases hj : j = k <;> simp [hj]

/-- FRAME is BUILD on the four new fields, whatever they were (R71, R107). -/
theorem runWords_frameWords (b : Block) (a c s f : Byte) :
    runWords b (frameWords a c s f) = ({ b with addr := a, cmd := c, sub := s, flag := f } : Block).build := by
  have hstatus : statusSet .txrdy (statusClear .txrdy (statusClear .txrdy (statusClear .txrdy
      (statusClear .txrdy b.status)))) = statusSet .txrdy b.status := by
    simp only [statusSet_statusClear]
  simp only [frameWords, runWords_cons, runWords_nil, commandStep_encode]
  exact congrArg (fun v => { Block.build { b with addr := a, cmd := c, sub := s, flag := f } with status := v }) hstatus

/-- Settles O32: the run of FRAME is BUILD on the new fields, which writes only TX and TXRDY. -/
theorem framePseudoInstruction : Obligations.FramePseudoInstruction := by
  intro b a c s f after
  have hafter : after = ({ b with addr := a, cmd := c, sub := s, flag := f } : Block).build :=
    runWords_frameWords b a c s f
  obtain ⟨htxrdy, hflags⟩ := ({ b with addr := a, cmd := c, sub := s, flag := f } : Block).build_flags
  rw [hafter]
  exact ⟨rfl, rfl, rfl, rfl, rfl, htxrdy, rfl, rfl, rfl, rfl, hflags⟩

end Sys2Proof.Machine
end

section
/-! PROOF. O25: two bytes lead CRCREG from each value to each value, once (42_verify.md R131, 10_state.md R30). Two bytes
are XORed into the register as one word, and what follows is a bijection. -/

namespace Sys2Proof.Machine

/-- For each message the raw CRC is a bijection on the register (R90). -/
theorem crcRaw_bijective (p : List Byte) : Function.Bijective fun r : Word => crcRaw r p := by
  induction p with
  | nil => exact Function.bijective_id
  | cons d p ih => exact ih.comp (crcByte_bijective d)

/-- A word is its low and its high byte, and any two bytes make a word (R42). -/
theorem joinBytes_bijective : Function.Bijective fun p : Byte × Byte => joinBytes p.2 p.1 :=
  Function.bijective_iff_has_inverse.2
    ⟨fun w => (lowByte w, highByte w), fun p => by simp, fun w => joinBytes_high_low w⟩

theorem xor_word_bijective (r : Word) : Function.Bijective fun w : Word => r ^^^ w :=
  Function.Involutive.bijective fun w => by rw [← BitVec.xor_assoc, BitVec.xor_self, BitVec.zero_xor]

/-- Two bytes act on the register as the word they make, XORed in before two zero bytes (R91). -/
theorem crcRaw_pair (r : Word) (x y : Byte) : crcRaw r [x, y] = crcRaw (r ^^^ joinBytes y x) [0#8, 0#8] := by
  rw [← crcRaw_wordToBytes, wordToBytes_eq_pair.2 rfl]

/-- From each register value, two bytes lead to each value exactly once (R131). -/
theorem crcRaw_pair_bijective (r : Word) : Function.Bijective fun p : Byte × Byte => crcRaw r [p.1, p.2] := by
  have hcomp : (fun p : Byte × Byte => crcRaw r [p.1, p.2]) =
      (fun v => crcRaw v [0#8, 0#8]) ∘ (fun w => r ^^^ w) ∘ fun p => joinBytes p.2 p.1 := by
    funext p
    rw [Function.comp_apply, Function.comp_apply, crcRaw_pair]
  rw [hcomp]
  exact (crcRaw_bijective [0#8, 0#8]).comp ((xor_word_bijective r).comp joinBytes_bijective)

/-- Settles O25: the two CRCBYTEs after reset feed the two bytes that lead from the seed to the value. -/
theorem twoBytesReachEveryRegister : Obligations.TwoBytesReachEveryRegister := by
  refine ⟨crcRaw_pair_bijective, fun v => ?_⟩
  obtain ⟨⟨x, y⟩, hv⟩ := (crcRaw_pair_bijective Block.reset.crcreg).surjective v
  exact ⟨x, y, (congrArg Block.crcreg (runWords_crcbytes Block.reset [x, y])).trans hv⟩

end Sys2Proof.Machine
end

section
/-! PROOF. O34: the function `verifyAndStrip`, outcome by outcome (42_verify.md R120 to R123). -/

namespace Sys2Proof.Machine

/-- A frame that ends in two bytes checks exactly when they are the CRC of the bytes before them (R121). -/
theorem verifyAndStrip_append_pair (data : List Byte) (x y : Byte) :
    verifyAndStrip (data ++ [x, y]) =
      if wordToBytes (crc16 data) = [x, y] then .ok data
      else .error (.checksum (data ++ [x, y]) (wordToBytes (crc16 data)) [x, y]) := by
  obtain ⟨htake, hdrop⟩ := take_drop_tail data x y
  simp only [verifyAndStrip, htake, hdrop]

/-- Everything the check can answer: the data of a frame that is its data followed by their CRC, or a ChecksumError
that carries the frame (R121). -/
theorem verifyAndStrip_cases (frame : List Byte) :
    (∃ data, frame = data ++ wordToBytes (crc16 data) ∧ verifyAndStrip frame = .ok data) ∨
    ∃ expected received, verifyAndStrip frame = .error (.checksum frame expected received) := by
  by_cases hcrc : wordToBytes (crc16 (frame.take (frame.length - 2))) = frame.drop (frame.length - 2)
  · exact .inl ⟨_, hcrc ▸ (List.take_append_drop _ frame).symm, if_pos hcrc⟩
  · exact .inr ⟨_, _, if_neg hcrc⟩

/-- A frame checks, and gives the data, exactly when it is the data followed by their CRC (R121, R130). -/
theorem verifyAndStrip_eq_ok_iff (frame data : List Byte) :
    verifyAndStrip frame = .ok data ↔ frame = data ++ wordToBytes (crc16 data) := by
  constructor
  · intro h
    obtain ⟨d, hframe, hd⟩ | ⟨_, _, herror⟩ := verifyAndStrip_cases frame
    · exact Except.ok.inj (hd.symm.trans h) ▸ hframe
    · cases h.symm.trans herror
  · rintro rfl
    exact verifyAndStrip_append_crc16 data

theorem wordToBytes_crc16_nil : wordToBytes (crc16 []) = [0x00#8, 0x00#8] := by
  decide

/-- A frame shorter than two bytes never checks (R122). -/
theorem verifyAndStrip_short {frame : List Byte} (h : frame.length < 2) :
    verifyAndStrip frame = .error (.checksum frame [0x00#8, 0x00#8] frame) := by
  have hcut : frame.length - 2 = 0 := by omega
  have hne : [0x00#8, 0x00#8] ≠ frame := by
    rintro rfl
    simp at h
  simp only [verifyAndStrip, hcut, List.take_zero, List.drop_zero, wordToBytes_crc16_nil, if_neg hne]

/-- Settles O34: the two outcomes by the last two bytes, and for a frame of two bytes the CRC of no data is zero. -/
theorem verifyAndStripChecksTail : Obligations.VerifyAndStripChecksTail := by
  refine ⟨wordToBytes_eq, verifyAndStrip_append_pair, fun _ => verifyAndStrip_short, fun x y data => ?_⟩
  rw [verifyAndStrip_eq_ok_iff]
  constructor
  · intro hframe
    obtain rfl : data = [] := List.eq_nil_of_length_eq_zero (by simpa using congrArg List.length hframe)
    simpa [wordToBytes_crc16_nil] using hframe
  · rintro ⟨rfl, rfl, rfl⟩
    exact wordToBytes_crc16_nil.symm

end Sys2Proof.Machine
end

section
/-! PROOF. O35, O36: RXWR and VERIFY on the machine (42_verify.md R126, R127). -/

namespace Sys2Proof

/-! ## The words of the two opcodes -/

/-- Under OP = 5 a word with SEL[3] = 1 is illegal (R126). -/
theorem legal_eq_false_of_op_rxwr {w : CmdWord} (hop : opOf w = 0x5#4) (hsel : w.extractLsb' 11 1 = 1#1) :
    legal w = false := by
  rw [Bool.eq_false_iff, ne_eq, legal_iff_fields]
  simp [hop, hsel]

/-- Under OP = 6 only VERIFY's word is legal (R127). -/
theorem legal_eq_false_of_op_verify {w : CmdWord} (hop : opOf w = 0x6#4) (hw : w ≠ 0x6000#16) : legal w = false := by
  have hfields : ¬(selOf w = 0#4 ∧ dataOf w = 0#8) := fun hzero => hw ((word_eq_iff_fields w 0x6000#16).2 ⟨hop, hzero⟩)
  rw [Bool.eq_false_iff, ne_eq, legal_iff_fields]
  simpa [hop] using hfields

namespace Machine

/-! ## RXWR -/

/-- RXWR clears both verdict bits and leaves the other flags (R126). -/
theorem Block.rxwr_flags (k : Fin 8) (d : Byte) (b : Block) :
    (b.rxwr k d).valid = false ∧ (b.rxwr k d).chkerr = false ∧ (b.rxwr k d).txrdy = b.txrdy ∧
      (b.rxwr k d).illegal = b.illegal := by
  simp [Block.txrdy, Block.valid, Block.chkerr, Block.illegal]

/-- Settles O35: the block written out is the block after RXWR, and the word written out is RXWR's. -/
theorem rxwrWritesByte : Obligations.RxwrWritesByte := by
  refine ⟨fun s k d => ?_, fun _ => legal_eq_false_of_op_rxwr⟩
  intro written
  have hexec : exec (.rxwr k d) s = .next { s with block := written } := by
    rw [exec_eq, blockAfter, Block.rxwr_eq_update]
    rfl
  have hwritten : written = s.block.rxwr k d := (Block.rxwr_eq_update k d s.block).symm
  refine ⟨hexec, (step_encode s (.rxwr k d)).trans hexec, ?_⟩
  rw [hwritten]
  exact s.block.rxwr_flags k d

/-! ## VERIFY -/

/-- VERIFY as one update: both diagnostics, and bits 1:0 of STATUS (R127). -/
theorem Block.verify_eq_update (b : Block) :
    b.verify =
      { b with
        dcalc := crc16 b.payload
        drecv := b.received
        status :=
          if crc16 b.payload = b.received then (b.status &&& 0xFC#8) ||| 0x01#8
          else (b.status &&& 0xFC#8) ||| 0x02#8 } := by
  have hmatch : ∀ v : Byte, statusClear .chkerr (statusSet .valid v) = (v &&& 0xFC#8) ||| 0x01#8 := by
    decide +kernel
  have hmismatch : ∀ v : Byte, statusSet .chkerr (statusClear .valid v) = (v &&& 0xFC#8) ||| 0x02#8 := by
    decide +kernel
  rw [Block.verify_eq]
  split
  · rw [← hmatch]; rfl
  · rw [← hmismatch]; rfl

theorem Block.verify_dcalc (b : Block) : b.verify.dcalc = crc16 b.payload :=
  congrArg ResponsePart.dcalc b.verify_responsePart

theorem Block.verify_drecv (b : Block) : b.verify.drecv = b.received :=
  congrArg ResponsePart.drecv b.verify_responsePart

theorem Block.verify_rx (b : Block) : b.verify.rx = b.rx :=
  congrArg ResponsePart.rx b.verify_responsePart

/-- VERIFY sets VALID exactly when the CRCs agree (R127). -/
theorem Block.verify_valid_iff (b : Block) : b.verify.valid = true ↔ crc16 b.payload = b.received := by
  rw [show b.verify.valid = _ from congrArg ResponsePart.valid b.verify_responsePart, decide_eq_true_iff]

/-- VERIFY sets CHKERR exactly when the CRCs differ (R127). -/
theorem Block.verify_chkerr_iff (b : Block) : b.verify.chkerr = true ↔ crc16 b.payload ≠ b.received := by
  rw [show b.verify.chkerr = _ from congrArg ResponsePart.chkerr b.verify_responsePart, decide_eq_true_iff]

/-- VERIFY twice is VERIFY: it does not write the RX it reads (R127). -/
theorem Block.verify_verify (b : Block) : b.verify.verify = b.verify :=
  blockAfter_idem (i := .verify) (by simp) b

/-- The 16-bit compare is the compare of the two bytes (R120, R127). -/
theorem Block.eq_received_iff (b : Block) (c : Word) : c = b.received ↔ wordToBytes c = [b.rx[6], b.rx[7]] :=
  wordToBytes_eq_pair.symm

theorem Block.verify_txrdy (b : Block) : b.verify.txrdy = b.txrdy :=
  congrArg FramePart.txrdy b.verify_framePart

theorem commandStep_verify (b : Block) : commandStep b 0x6000#16 = b.verify :=
  commandStep_encode b .verify

/-- The payload and the received CRC of an RX written out byte by byte (R27, R127). -/
theorem Block.views_of_bytes {b : Block} {b0 b1 b2 b3 b4 b5 x y : Byte} (h : b.rx = #v[b0, b1, b2, b3, b4, b5, x, y]) :
    b.payload = [b0, b1, b2, b3, b4, b5] ∧ b.received = joinBytes y x := by
  rw [Block.payload, Block.received, h]
  exact ⟨rfl, rfl⟩

/-- An all-zero payload checks with one CRC only (R127). -/
theorem verify_zero_payload_valid_iff (b : Block) (x y : Byte) :
    ({ b with rx := #v[0, 0, 0, 0, 0, 0, x, y] } : Block).verify.valid = true ↔ x = 0x8F#8 ∧ y = 0xF7#8 := by
  have hbytes : wordToBytes (crc16 [0, 0, 0, 0, 0, 0]) = [0x8F#8, 0xF7#8] := by decide +kernel
  obtain ⟨hpayload, hreceived⟩ := Block.views_of_bytes (b := { b with rx := #v[0, 0, 0, 0, 0, 0, x, y] }) rfl
  rw [Block.verify_valid_iff, hpayload, hreceived, ← wordToBytes_eq_pair, hbytes]
  simp [eq_comm]

/-- Settles O36: the block written out is the block after VERIFY; the corner cases are CRCs evaluated. -/
theorem verifyChecksResponse : Obligations.VerifyChecksResponse := by
  refine ⟨?_, fun _ => legal_eq_false_of_op_verify, ?_, fun b x y => ?_, fun b hrx => ?_⟩
  · intro s c recv checked
    have hchecked : checked = s.block.verify := s.block.verify_eq_update.symm
    rw [hchecked]
    refine ⟨rfl, step_encode s .verify, ?_, s.block.verify_valid_iff, s.block.verify_chkerr_iff,
      s.block.eq_received_iff c, s.block.verify_txrdy, blockAfter_illegal .verify s.block⟩
    exact congrArg (fun b => Host.Outcome.next (s.setBlock b)) s.block.verify_verify
  · decide +kernel
  · rw [commandStep_verify]
    exact verify_zero_payload_valid_iff b x y
  · obtain ⟨hpayload, hreceived⟩ := Block.views_of_bytes hrx
    have hcrc : crc16 [0x00, 0x06, 0x43, 0x66, 0x80, 0x00] = 0xA035#16 := by decide +kernel
    have hrecv : joinBytes 0xA0 0x35 = 0xA035#16 := by decide
    have hmatch : crc16 b.payload = b.received := by rw [hpayload, hreceived, hcrc, hrecv]
    obtain ⟨hpayload', -⟩ := Block.views_of_rx b.verify_rx
    rw [commandStep_verify]
    refine ⟨?_, ?_, b.verify_valid_iff.2 hmatch, ?_, hpayload'.trans hpayload⟩
    · rw [b.verify_dcalc, hpayload, hcrc]
    · rw [b.verify_drecv, hreceived, hrecv]
    · rw [Bool.eq_false_iff, ne_eq, b.verify_chkerr_iff, not_not]
      exact hmatch

end Machine

end Sys2Proof
end

section
/-! PROOF. O38, O39, O40: the response check agrees with the function `verifyAndStrip` on what RX holds (42_verify.md
R128 to R130). -/

namespace Sys2Proof.Machine

/-! ## The function on RX -/

/-- RX is the payload followed by the two received bytes (R27, R127). -/
theorem Block.rx_toList_eq (b : Block) : b.rx.toList = b.payload ++ [b.rx[6], b.rx[7]] := by
  have htail : b.rx.toList.drop 6 = [b.rx[6], b.rx[7]] := by
    rw [List.drop_eq_getElem_cons (by simp), List.drop_eq_getElem_cons (by simp), List.drop_of_length_le (by simp)]
    simp
  rw [Block.payload, ← htail, List.take_append_drop]

/-- The function on RX, in the block's payload and received CRC (R121, R127). -/
theorem Block.verifyAndStrip_rx (b : Block) :
    verifyAndStrip b.rx.toList =
      if crc16 b.payload = b.received then .ok b.payload
      else .error (.checksum b.rx.toList (wordToBytes (crc16 b.payload)) (wordToBytes b.received)) := by
  have hreceived : wordToBytes b.received = [b.rx[6], b.rx[7]] := (b.eq_received_iff b.received).1 rfl
  rw [b.rx_toList_eq, verifyAndStrip_append_pair, ← hreceived]
  simp only [wordToBytes_inj]

/-! ## After a VERIFY that matched (O38) -/

/-- No word but RXWR and VERIFY changes the response check's part, illegal words included (R27, R147). -/
theorem commandStep_responsePart {w : CmdWord}
    (hw : decodeWord w ≠ .ok .verify ∧ ∀ k d, decodeWord w ≠ .ok (.rxwr k d)) (b : Block) :
    (commandStep b w).responsePart = b.responsePart := by
  obtain ⟨hverify, hrxwr⟩ := hw
  obtain ⟨-, i, hd, hstep⟩ | ⟨-, hstep⟩ := commandStep_cases w <;> rw [hstep]
  · obtain ⟨k, d, rfl⟩ | rfl | hsame := blockAfter_responsePart_cases i
    · exact absurd hd (hrxwr k d)
    · exact absurd hd hverify
    · exact hsame b
  · exact Block.raise_responsePart (by decide) (by decide) b

/-- A run without RXWR and VERIFY leaves the response check's part (R128). -/
theorem runWords_responsePart {ws : List CmdWord}
    (hws : ∀ w ∈ ws, decodeWord w ≠ .ok .verify ∧ ∀ k d, decodeWord w ≠ .ok (.rxwr k d)) (b : Block) :
    (runWords b ws).responsePart = b.responsePart := by
  induction ws generalizing b with
  | nil => rfl
  | cons w ws ih =>
    obtain ⟨hw, hws⟩ := List.forall_mem_cons.1 hws
    exact (ih hws (commandStep b w)).trans (commandStep_responsePart hw b)

/-- Byte `k` of the payload is at index 0x12 + k (R27, R31). -/
theorem readPort_payload (b : Block) (k : Fin 6) :
    readPort b (BitVec.ofNat 8 (0x12 + k.val)) = b.payload[k.val]? := by
  have hbyte : b.payload[k.val]? = some b.rx[k.val] := by
    simp [Block.payload, show k.val < 8 by omega]
  exact (readPort_rx b ⟨k.val, by omega⟩).trans hbyte.symm

/-- Settles O38: the run leaves the response check's part as VERIFY left it, so its invariant still holds, and VALID
says that the CRC of the payload is the one received. -/
theorem payloadIsVerifiedData : Obligations.PayloadIsVerifiedData := by
  intro b ws hws hvalid after
  have hpart : after.responsePart = b.verify.responsePart := by
    rw [← commandStep_verify]
    exact runWords_responsePart hws (commandStep b 0x6000#16)
  rw [commandStep_verify] at hvalid
  have hafter : after.valid = true := (congrArg ResponsePart.valid hpart).trans hvalid
  have hverdict : after.VerdictOk := b.verdictOk_verify.of_responsePart_eq hpart
  obtain ⟨hcalc, hrecv⟩ := hverdict.verdictCurrent (.inl hafter)
  have hmatch : crc16 after.payload = after.received := by rw [← hcalc, ← hrecv, hverdict.validAgrees hafter]
  exact ⟨hafter, by rw [after.verifyAndStrip_rx, if_pos hmatch], readPort_payload after⟩

/-! ## CHECK (O39, O40) -/

/-- CHECK is VERIFY on the eight new bytes, whatever was there (R71). -/
theorem runWords_checkWords (b : Block) (v : Vector Byte 8) :
    runWords b (checkWords v) = ({ b with rx := v, status := b.status &&& 0xFC#8 } : Block).verify := by
  rw [checkWords, runWords_append, runWords_rxloadWords, runWords_cons, commandStep_encode]
  rfl

/-- What CHECK leaves in the response check's registers and flags, when the frame checks and when not (R129). -/
theorem check_cases (b : Block) (v : Vector Byte 8) :
    (runWords b (checkWords v)).rx = v ∧
    ((verifyAndStrip v.toList = .ok (v.toList.take 6) ∧ (runWords b (checkWords v)).valid = true ∧
        (runWords b (checkWords v)).chkerr = false) ∨
      (verifyAndStrip v.toList = .error (.checksum v.toList (wordToBytes (runWords b (checkWords v)).dcalc)
          (wordToBytes (runWords b (checkWords v)).drecv)) ∧
        (runWords b (checkWords v)).valid = false ∧ (runWords b (checkWords v)).chkerr = true)) := by
  rw [runWords_checkWords]
  generalize hc : ({ b with rx := v, status := b.status &&& 0xFC#8 } : Block) = c
  obtain rfl : c.rx = v := hc ▸ rfl
  refine ⟨c.verify_rx, ?_⟩
  have hvalid := c.verify_valid_iff
  have hchkerr := c.verify_chkerr_iff
  rw [c.verifyAndStrip_rx, c.verify_dcalc, c.verify_drecv]
  by_cases hmatch : crc16 c.payload = c.received
  · refine .inl ⟨if_pos hmatch, hvalid.2 hmatch, ?_⟩
    rwa [Bool.eq_false_iff, ne_eq, hchkerr, not_not]
  · refine .inr ⟨if_neg hmatch, ?_, hchkerr.2 hmatch⟩
    rwa [Bool.eq_false_iff, ne_eq, hvalid]

/-- Settles O39: CHECK's two cases are the function's two outcomes. -/
theorem checkAgreesWithFunction : Obligations.CheckAgreesWithFunction := by
  intro b v after
  obtain ⟨hrx, ⟨hok, hvalid, hchkerr⟩ | ⟨herror, hvalid, hchkerr⟩⟩ := check_cases b v
  · refine ⟨fun d hd => ⟨hvalid, hchkerr, ?_⟩, fun e he => ?_⟩
    · rw [hrx, Except.ok.inj (hok.symm.trans hd)]
    · cases hok.symm.trans he
  · refine ⟨fun d hd => ?_, fun e he => ⟨hvalid, hchkerr, hrx, ?_⟩⟩
    · cases herror.symm.trans hd
    · exact (Except.error.inj (herror.symm.trans he)).symm

/-- Settles O40: the function's law, and CHECK agrees with the function. -/
theorem roundTripLaw : Obligations.RoundTripLaw := by
  refine ⟨verifyAndStrip_append_crc16, fun b p v _ hv => ?_⟩
  obtain ⟨hok, -⟩ := checkAgreesWithFunction b v
  obtain ⟨hvalid, -, hpayload⟩ := hok p (hv ▸ verifyAndStrip_append_crc16 p)
  exact ⟨hvalid, hpayload⟩

end Sys2Proof.Machine
end

section
/-! PROOF. O41: one flipped bit is detected in a frame of any length (42_verify.md R131). Two frames that differ in one
byte leave different registers, and a frame that checks leaves the residue. -/

namespace Sys2Proof.Machine

/-! ## One byte changed -/

/-- From each register value, different bytes lead to different values: a byte acts as the same bits of the register
do (R91). -/
theorem crcByte_injective_byte (r : Word) : Function.Injective fun d : Byte => crcByte r d := by
  intro d d' h
  replace h : crcByte r d = crcByte r d' := h
  rw [crcByte_eq_zero_byte r d, crcByte_eq_zero_byte r d'] at h
  have hword : d.setWidth 16 = d'.setWidth 16 := (BitVec.xor_right_inj r).1 ((crcByte_bijective 0#8).injective h)
  simpa only [lowByte_setWidth] using congrArg lowByte hword

/-- A message with one byte changed leaves another register value (R131). -/
theorem crcRaw_modify_ne {f : Byte → Byte} (hf : ∀ d, f d ≠ d) (r : Word) {p : List Byte} {n : Nat}
    (hn : n < p.length) : crcRaw r (p.modify n f) ≠ crcRaw r p := by
  induction p generalizing r n with
  | nil => exact absurd hn (Nat.not_lt_zero n)
  | cons d p ih =>
    cases n with
    | zero =>
      rw [List.modify_zero_cons, crcRaw_cons, crcRaw_cons]
      exact fun h => hf d (crcByte_injective_byte r ((crcRaw_bijective p).injective h))
    | succ n =>
      rw [List.modify_succ_cons, crcRaw_cons, crcRaw_cons]
      exact ih _ (Nat.lt_of_succ_lt_succ hn)

/-- A flipped bit leaves another register value (R131). -/
theorem crcRaw_flipBit_ne (r : Word) {p : List Byte} {j : Nat} (hj : j < 8 * p.length) :
    crcRaw r (flipBit p j) ≠ crcRaw r p := by
  have hmask : 1#8 <<< (j % 8) ≠ 0#8 :=
    (by decide : ∀ k < 8, 1#8 <<< k ≠ 0#8) (j % 8) (Nat.mod_lt j (by decide))
  refine crcRaw_modify_ne (fun d h => hmask ?_) r (by omega)
  exact (BitVec.xor_right_inj d).1 (h.trans BitVec.xor_zero.symm)

/-! ## Frames that check leave the residue -/

/-- The residue is what a frame that checks leaves, whatever its data (R93, R121). -/
theorem crcRaw_of_verifyAndStrip_ok {frame data : List Byte} (h : verifyAndStrip frame = .ok data) :
    crcRaw Config.crcSeed frame = 0xF0B8#16 := by
  rw [(verifyAndStrip_eq_ok_iff frame data).1 h, crcRaw_append_crc16]

/-- Settles O41: the flipped frame leaves another value than the residue, so it does not check. -/
theorem singleBitFlipIsDetected : Obligations.SingleBitFlipIsDetected := by
  intro frame data j hok hj
  obtain ⟨data', -, hok'⟩ | herror := verifyAndStrip_cases (flipBit frame j)
  · have hsame := (crcRaw_of_verifyAndStrip_ok hok').trans (crcRaw_of_verifyAndStrip_ok hok).symm
    exact absurd hsame (crcRaw_flipBit_ne Config.crcSeed hj)
  · exact herror

end Sys2Proof.Machine
end

section
/-! PROOF. O42, O43: which error patterns of an eight-byte frame are detected (42_verify.md R131, R132). A pattern of
odd weight has odd parity, which the CRC register keeps; one of weight two would need a register that holds 1 to come
back to it within 63 shifts. -/

namespace Sys2Proof.Machine

/-! ## Residue and syndrome -/

/-- A frame of two bytes or more ends in two bytes. -/
theorem exists_append_pair {frame : List Byte} (h : 2 ≤ frame.length) : ∃ data x y, frame = data ++ [x, y] := by
  obtain ⟨x, y, htail⟩ := List.length_eq_two.1 (show (frame.drop (frame.length - 2)).length = 2 by simp; omega)
  exact ⟨frame.take (frame.length - 2), x, y, by rw [← htail, List.take_append_drop]⟩

/-- A frame of two bytes or more checks exactly when it leaves the residue: from the register after its data, only two
bytes lead there (R93, R131). -/
theorem verifyAndStrip_ok_iff_residue {frame : List Byte} (h : 2 ≤ frame.length) :
    (∃ data, verifyAndStrip frame = .ok data) ↔ crcRaw Config.crcSeed frame = 0xF0B8#16 := by
  refine ⟨fun ⟨_, hok⟩ => crcRaw_of_verifyAndStrip_ok hok, fun hresidue => ?_⟩
  obtain ⟨data, x, y, rfl⟩ := exists_append_pair h
  rw [← crcRaw_append_crc16 data, crcRaw_append, crcRaw_append] at hresidue
  have hpair : (x, y) = (lowByte (crc16 data), highByte (crc16 data)) :=
    (crcRaw_pair_bijective (crcRaw Config.crcSeed data)).injective hresidue
  obtain ⟨rfl, rfl⟩ := Prod.mk.inj hpair
  exact ⟨data, verifyAndStrip_append_crc16 data⟩

/-- CHECK gives VALID exactly on the residue (R129, R131). -/
theorem check_valid_iff_residue (b : Block) (v : Vector Byte 8) :
    (runWords b (checkWords v)).valid = true ↔ crcRaw Config.crcSeed v.toList = 0xF0B8#16 := by
  rw [← verifyAndStrip_ok_iff_residue (by simp)]
  obtain ⟨-, ⟨hok, hvalid, -⟩ | ⟨herror, hvalid, -⟩⟩ := check_cases b v
  · simp [hok, hvalid]
  · simp [herror, hvalid]

/-- An error pattern changes the register by its own syndrome (R90, R131). -/
theorem crcRaw_xorBytes (r s : Word) {p e : List Byte} (h : e.length = p.length) :
    crcRaw (r ^^^ s) (xorBytes p e) = crcRaw r p ^^^ crcRaw s e := by
  induction p generalizing r s e with
  | nil => rw [List.eq_nil_of_length_eq_zero h]; rfl
  | cons d p ih =>
    cases e with
    | nil => cases h
    | cons m e =>
      rw [crcRaw_cons, crcRaw_cons, ← ih _ _ (Nat.succ.inj h), ← crcByte_xor]
      rfl

/-- Zero bytes leave the zero register as it is. -/
theorem crcRaw_zeros (n : Nat) : crcRaw 0#16 (List.replicate n 0x00#8) = 0#16 := by
  induction n with
  | zero => rfl
  | succ n ih => rw [List.replicate_succ, crcRaw_cons, show crcByte 0#16 0x00#8 = 0#16 by decide, ih]

/-! ## A message as its bits -/

/-- The bits of a message in the order the CRC consumes them: first byte first, least significant bit first (R82,
R83). -/
def messageBits (p : List Byte) : List Bool := p.flatMap fun d => (List.range 8).map d.getLsbD

theorem crcByte_eq_foldl_crcBit (r : Word) (d : Byte) : crcByte r d = ((List.range 8).map d.getLsbD).foldl crcBit r :=
  byteStepIsEightBitSteps.2 r d

/-- The raw CRC is the bit step over the message's bits (R82, R83). -/
theorem crcRaw_eq_foldl_crcBit (r : Word) (p : List Byte) : crcRaw r p = (messageBits p).foldl crcBit r := by
  simp only [messageBits, List.foldl_flatMap, ← crcByte_eq_foldl_crcBit]
  rfl

theorem length_messageBits (p : List Byte) : (messageBits p).length = 8 * p.length := by
  simp [messageBits, Nat.mul_comm]

/-- The weight of an error pattern counts its bits that are set. -/
theorem bitWeight_eq_count (e : List Byte) : bitWeight e = (messageBits e).count true := by
  have hbyte (d : Byte) : ((List.range 8).map d.getLsbD).count true = (List.range 8).countP d.getLsbD := by
    simp [List.count, List.countP_map, Function.comp_def]
  simp only [bitWeight, messageBits, List.count_flatMap, Function.comp_def, hbyte]

/-! ## Odd weight: the parity of the register -/

/-- The parity of the register's bits below bit `n`: whether an odd number of them is set. -/
def parityBelow (r : Word) : Nat → Bool
  | 0 => false
  | n + 1 => parityBelow r n ^^ r.getLsbD n

/-- The parity of the register. -/
def wordParity (r : Word) : Bool := parityBelow r 16

theorem parityBelow_xor (v w : Word) (n : Nat) : parityBelow (v ^^^ w) n = (parityBelow v n ^^ parityBelow w n) := by
  induction n with
  | zero => rfl
  | succ n ih =>
    simp only [parityBelow, ih, BitVec.getLsbD_xor, Bool.xor_assoc, Bool.xor_left_comm]

theorem parityBelow_ushiftRight_one (r : Word) (n : Nat) :
    parityBelow (r >>> 1) n = (r.getLsbD 0 ^^ parityBelow r (n + 1)) := by
  induction n with
  | zero => simp [parityBelow]
  | succ n ih => rw [parityBelow, ih, BitVec.getLsbD_ushiftRight, Nat.add_comm 1 n, Bool.xor_assoc]; rfl

theorem wordParity_xor (v w : Word) : wordParity (v ^^^ w) = (wordParity v ^^ wordParity w) :=
  parityBelow_xor v w 16

/-- A shift takes the bit that leaves out of the parity. -/
theorem wordParity_ushiftRight_one (r : Word) : wordParity (r >>> 1) = (r.getLsbD 0 ^^ wordParity r) := by
  have htop : r.getLsbD 16 = false := BitVec.getLsbD_of_ge r 16 (Nat.le_refl 16)
  rw [wordParity, parityBelow_ushiftRight_one, parityBelow, htop, Bool.xor_false, wordParity]

/-- A bit step adds the data bit to the parity, since the polynomial has an odd number of bits (R80, R81). -/
theorem wordParity_crcBit (r : Word) (x : Bool) : wordParity (crcBit r x) = (wordParity r ^^ x) := by
  have hpoly (c : Bool) : wordParity (if c = true then Config.crcPoly else 0#16) = c := by
    cases c <;> decide
  rw [crcBit_eq_xor, wordParity_xor, wordParity_ushiftRight_one, hpoly]
  cases r.getLsbD 0 <;> simp

theorem wordParity_foldl_crcBit (r : Word) (bits : List Bool) :
    wordParity (bits.foldl crcBit r) = (wordParity r ^^ (bits.count true).bodd) := by
  induction bits generalizing r with
  | nil => simp
  | cons x bits ih =>
    rw [List.foldl_cons, ih, wordParity_crcBit]
    cases x <;> simp

/-- Bits of which an odd number is set do not lead from zero to zero. -/
theorem foldl_crcBit_ne_zero_of_odd {bits : List Bool} (h : (bits.count true).bodd = true) :
    bits.foldl crcBit 0#16 ≠ 0#16 := by
  intro hzero
  have hparity := wordParity_foldl_crcBit 0#16 bits
  rw [hzero, h] at hparity
  exact absurd hparity (by decide)

/-! ## Weight two: the order of the shift -/

/-- The bit step with data bit 1 is the one with data bit 0 on the register with its low bit flipped (R90, R91). -/
theorem crcBit_true_eq (r : Word) : crcBit r true = crcBit (r ^^^ 1#16) false := by
  have hlow : crcBit 1#16 true = 0#16 := by decide
  rw [show false = (true ^^ true) from rfl, crcBit_xor, hlow, BitVec.xor_zero]

theorem crcBit_false_eq_zero_iff (r : Word) : crcBit r false = 0#16 ↔ r = 0#16 :=
  (crcBit_injective false).eq_iff' (by decide)

/-- Only the zero register is led to zero by zero bits. -/
theorem eq_zero_of_foldl_crcBit_zeros {r : Word} {bits : List Bool} (hbits : bits.count true = 0)
    (h : bits.foldl crcBit r = 0#16) : r = 0#16 := by
  induction bits generalizing r with
  | nil => exact h
  | cons x bits ih =>
    cases x with
    | false => exact (crcBit_false_eq_zero_iff r).1 (ih (by simpa using hbits) h)
    | true => simp at hbits

/-- A register that bits with a single 1 among them lead to zero holds 1 when that bit comes: it gets there by shifts. -/
theorem exists_iterate_eq_one_of_count_one {r : Word} {bits : List Bool} (hbits : bits.count true = 1)
    (h : bits.foldl crcBit r = 0#16) : ∃ k < bits.length, (crcBit · false)^[k] r = 1#16 := by
  induction bits generalizing r with
  | nil => cases hbits
  | cons x bits ih =>
    cases x with
    | false =>
      obtain ⟨k, hk, hone⟩ := ih (by simpa using hbits) h
      exact ⟨k + 1, Nat.succ_lt_succ hk, hone⟩
    | true =>
      have hzero : crcBit r true = 0#16 := eq_zero_of_foldl_crcBit_zeros (by simpa using hbits) h
      rw [crcBit_true_eq, crcBit_false_eq_zero_iff, BitVec.xor_eq_zero_iff] at hzero
      exact ⟨0, Nat.succ_pos _, hzero⟩

/-- The register after a 1 has come to zero does not hold 1 within the next 62 shifts (R80, R81). -/
theorem iterate_crcBit_ne_one {k : Nat} (hk : k < 63) : (crcBit · false)^[k] (crcBit 0#16 true) ≠ 1#16 := by
  revert k
  decide +kernel

/-- At most 64 bits of which two are set do not lead from zero to zero. -/
theorem foldl_crcBit_ne_zero_of_count_two {bits : List Bool} (hlength : bits.length ≤ 64)
    (hbits : bits.count true = 2) : bits.foldl crcBit 0#16 ≠ 0#16 := by
  induction bits with
  | nil => cases hbits
  | cons x bits ih =>
    rw [List.length_cons] at hlength
    cases x with
    | false => exact ih (by omega) (by simpa using hbits)
    | true =>
      intro (hzero : bits.foldl crcBit (crcBit 0#16 true) = 0#16)
      obtain ⟨k, hk, hone⟩ := exists_iterate_eq_one_of_count_one (by simpa using hbits) hzero
      exact iterate_crcBit_ne_one (by omega) hone

/-! ## The error patterns of an eight-byte frame -/

/-- No pattern of one, two or three bits has a zero syndrome (R131). -/
theorem syndrome_ne_zero {e : List Byte} (hlength : e.length = 8) (hpos : 1 ≤ bitWeight e) (hle : bitWeight e ≤ 3) :
    crcRaw 0#16 e ≠ 0#16 := by
  rw [crcRaw_eq_foldl_crcBit]
  rw [bitWeight_eq_count] at hpos hle
  obtain hone | htwo | hthree : (messageBits e).count true = 1 ∨ (messageBits e).count true = 2 ∨
      (messageBits e).count true = 3 := by omega
  · exact foldl_crcBit_ne_zero_of_odd (by rw [hone]; rfl)
  · exact foldl_crcBit_ne_zero_of_count_two (by rw [length_messageBits, hlength]) htwo
  · exact foldl_crcBit_ne_zero_of_odd (by rw [hthree]; rfl)

/-- CHECK of a frame with an error gives VALID exactly when the frame's register and the error's syndrome make the
residue (R131). -/
theorem check_valid_xorBytes_iff (b : Block) {v v' : Vector Byte 8} {e : List Byte} (hlength : e.length = 8)
    (hv' : v'.toList = xorBytes v.toList e) :
    (runWords b (checkWords v')).valid = true ↔ crcRaw Config.crcSeed v.toList ^^^ crcRaw 0#16 e = 0xF0B8#16 := by
  rw [check_valid_iff_residue, hv', ← crcRaw_xorBytes _ _ (by simpa using hlength), BitVec.xor_zero]

/-- Settles O42: an error turns the residue into another value, since its syndrome is not zero; a single-bit pattern is
the zero frame with one bit flipped. -/
theorem upToThreeBitErrorsAreDetected : Obligations.UpToThreeBitErrorsAreDetected := by
  refine ⟨check_valid_iff_residue, fun frame e h => ?_, fun j hj => ?_, fun b v v' e hlength hpos hle hv' hvalid => ?_⟩
  · exact crcRaw_xorBytes 0xFFFF#16 0x0000#16 h
  · exact fun hzero => crcRaw_flipBit_ne 0#16 (by simpa using hj) (hzero.trans (crcRaw_zeros 8).symm)
  · obtain ⟨-, ⟨-, hvalid', -⟩ | ⟨-, -, hchkerr⟩⟩ := check_cases b v'
    · rw [check_valid_xorBytes_iff b hlength hv', (check_valid_iff_residue b v).1 hvalid] at hvalid'
      exact absurd ((BitVec.xor_right_inj 0xF0B8#16).1 (hvalid'.trans BitVec.xor_zero.symm))
        (syndrome_ne_zero hlength hpos hle)
    · exact hchkerr

/-- Settles O43: the pattern's syndrome is zero, so it leaves the register of every frame as it is. -/
theorem fourBitErrorPasses : Obligations.FourBitErrorPasses := by
  have hsyndrome : crcRaw 0#16 [0x11, 0x08, 0x01, 0, 0, 0, 0, 0] = 0#16 := by decide +kernel
  refine ⟨by decide +kernel, by decide +kernel, fun b => ⟨?_, ?_⟩, fun b v v' hv' => ?_⟩
  · rw [check_valid_iff_residue]
    decide +kernel
  · rw [check_valid_iff_residue]
    decide +kernel
  · rw [check_valid_xorBytes_iff b rfl hv', hsyndrome, BitVec.xor_zero, check_valid_iff_residue]

end Sys2Proof.Machine
end

section
/-! PROOF. O13, O19: what an illegal word does and what it does not reach (43_host.md R140, R147). -/

namespace Sys2Proof

/-- Under OP = 0 only NOP's word is legal (R140). -/
theorem legal_eq_false_of_op_nop {w : CmdWord} (hop : opOf w = 0x0#4) (hw : w ≠ 0x0000#16) : legal w = false := by
  have hfields : ¬(selOf w = 0#4 ∧ dataOf w = 0#8) := fun hzero => hw ((word_eq_iff_fields w 0x0000#16).2 ⟨hop, hzero⟩)
  rw [Bool.eq_false_iff, ne_eq, legal_iff_fields]
  simpa [hop] using hfields

namespace Machine

/-- The step that takes an illegal word sets ILLEGAL and changes nothing else (R147). -/
theorem step_illegal {w : CmdWord} (h : legal w = false) (s : State) :
    step { s with pending := .command w :: s.pending } = .next (s.setBlock (s.block.raise .illegal)) := by
  rw [step_command rfl, commandStep_of_illegal h]
  rfl

/-- Recording an illegal word leaves every other bit of STATUS (R147). -/
theorem Block.raise_illegal_flags (b : Block) :
    (b.raise .illegal).valid = b.valid ∧ (b.raise .illegal).chkerr = b.chkerr ∧ (b.raise .illegal).txrdy = b.txrdy ∧
      (b.raise .illegal).status.extractLsb' 4 4 = b.status.extractLsb' 4 4 := by
  simp [Block.valid, Block.chkerr, Block.txrdy]

/-- No command reads ILLEGAL: it does the same where ILLEGAL was set before, and ILLEGAL stands after it (R147). -/
theorem blockAfter_raise_illegal (i : Instr) (b : Block) :
    blockAfter i (b.raise .illegal) = (blockAfter i b).raise .illegal := by
  have hframe (c : Block) : (c.raise .illegal).framePart = c.framePart := Block.raise_framePart (by decide) c
  have hresponse (c : Block) : (c.raise .illegal).responsePart = c.responsePart :=
    Block.raise_responsePart (by decide) (by decide) c
  refine Block.ext_parts ?_ ?_ ?_ ?_ ?_
  · exact blockAfter_crcreg_congr i _ b rfl
  · exact (blockAfter_framePart_congr i _ b (hframe b)).trans (hframe _).symm
  · exact (blockAfter_responsePart_congr i _ b (hresponse b)).trans (hresponse _).symm
  · rw [blockAfter_illegal, Block.raise_illegal_illegal, Block.raise_illegal_illegal]
  · simp only [blockAfter_reserved, Block.raise_status, reserved_statusSet]

/-- Every word, legal or not, runs as without ILLEGAL (R147). -/
theorem commandStep_raise_illegal (b : Block) (w : CmdWord) :
    commandStep (b.raise .illegal) w = (commandStep b w).raise .illegal := by
  obtain ⟨-, i, -, hstep⟩ | ⟨-, hstep⟩ := commandStep_cases w <;> rw [hstep, hstep]
  exact blockAfter_raise_illegal i b

/-- Settles O13: an illegal word raises bit 2 alone, no word clears it, and no command reads it. -/
theorem illegalCommandIsRecorded : Obligations.IllegalCommandIsRecorded := by
  refine ⟨fun s w hw => ?_, fun s w hillegal => ?_, commandStep_raise_illegal⟩
  · exact ⟨_, step_illegal hw s, s.block.raise_illegal_illegal, rfl, s.block.raise_illegal_flags⟩
  · refine ⟨_, step_command rfl, ?_⟩
    simp [commandStep_illegal, hillegal]

/-- Settles O19: NOP's word is 0x0000, and every other word under its opcode is recorded as illegal. -/
theorem nopChangesNothing : Obligations.NopChangesNothing := by
  refine ⟨fun s => ⟨rfl, step_encode s .nop⟩, fun s w hop hw => ?_⟩
  have hillegal : legal w = false := legal_eq_false_of_op_nop hop hw
  exact ⟨hillegal, step_illegal hillegal s⟩

end Machine

end Sys2Proof
end

section
/-! PROOF. O10, O11, O12, O14: the machine's step over a presented word is the spec's, and no step and no command stops
the machine (43_host.md R145, R146, R148). -/

namespace Sys2Proof.Machine

/-- Settles O10: a word that decodes to a command is that command's word. -/
theorem stepRunsDecodedCommand : Obligations.StepRunsDecodedCommand := by
  intro s w i hd
  obtain rfl : encode i = w := (decodeWord_eq_ok_iff w i).1 hd
  exact step_encode s i

/-- Settles O12: a command replaces the block alone, and no command writes ILLEGAL. -/
theorem everyCommandCompletes : Obligations.EveryCommandCompletes :=
  fun i s => ⟨_, exec_eq i s, rfl, rfl, rfl, blockAfter_illegal i s.block⟩

/-- Every host event is served: none faults and none is refused (R146). -/
theorem serve_completes (e : HostEvent) (s : State) : ∃ t, serve e s = .next t := by
  cases e with
  | command w => exact ⟨_, present_eq w s⟩
  | read i => exact ⟨_, rfl⟩
  | reset p => exact ⟨_, rfl⟩

/-- Every step answers a next state (R146; log entries 1 and 10). -/
theorem step_completes (s : State) : ∃ t, step s = .next t := by
  cases hp : s.pending with
  | nil => exact ⟨s, step_idle hp⟩
  | cons e rest =>
    rw [step_event hp]
    exact serve_completes e _

/-- Settles O11: the step over a presented word, and the completion of every step. -/
theorem stepIsTheSpecsStep : Obligations.StepIsTheSpecsStep :=
  ⟨fun _ _ => step_command rfl, step_completes⟩

/-- Settles O14: the run of the presented words, with no step after them. -/
theorem runOfPresentedWords : Obligations.RunOfPresentedWords :=
  fun s ws => run_commands s ws s.pending 0

end Sys2Proof.Machine
end

section
/-! PROOF. O45, O46: reads of the port (43_host.md R141 to R144). -/

namespace Sys2Proof.Machine

/-- The step that takes a read answers it and does nothing else (R141). -/
theorem step_read (i : ReadIndex) (s : State) :
    step { s with pending := .read i :: s.pending } = .next (answerRead i s) := by
  rw [step_event rfl]
  rfl

/-- A read adds one answer at its index; a mapped one adds the port's byte and draws nothing (R141, R142). -/
theorem answerRead_answers (i : ReadIndex) (s : State) :
    ∃ v, (answerRead i s).answers = s.answers ++ [⟨i, v⟩] ∧
      ∀ x, readPort s.block i = some x → v = x ∧ (answerRead i s).draws = s.draws := by
  cases hread : readPort s.block i with
  | some v =>
    rw [answerRead_mapped hread]
    exact ⟨v, rfl, fun x hx => ⟨Option.some.inj hx, rfl⟩⟩
  | none =>
    rw [answerRead_unmapped hread]
    exact ⟨_, rfl, nofun⟩

/-- Settles O45: a read leaves the block and the program, and adds its answer. -/
theorem readsChangeNothing : Obligations.ReadsChangeNothing := by
  intro s i
  obtain ⟨v, hanswers, hmapped⟩ := answerRead_answers i s
  exact ⟨_, v, step_read i s, answerRead_block i s, answerRead_pending i s, hanswers, hmapped⟩

/-- A byte whose bits 7:4 are zero is below 16 (R28). -/
theorem toNat_lt_16_of_reserved {v : Byte} (h : v.extractLsb' 4 4 = 0#4) : v.toNat < 16 := by
  have hhigh := congrArg BitVec.toNat h
  simp only [BitVec.extractLsb'_toNat, Nat.shiftRight_eq_div_pow, BitVec.toNat_ofNat] at hhigh
  omega

/-- CRCOUT is the complement of CRCREG in each of its two bytes (R24). -/
theorem Block.crcout_bytes (b : Block) :
    lowByte b.crcout = ~~~lowByte b.crcreg ∧ highByte b.crcout = ~~~highByte b.crcreg :=
  ⟨(lowByte_xor _ _).trans BitVec.xor_allOnes, (highByte_xor _ _).trans BitVec.xor_allOnes⟩

/-- Settles O46: STATUS is read as it stands, CRCOUT is the complement of CRCREG byte by byte, and a read leaves the
block. -/
theorem statusAndCrcoutReads : Obligations.StatusAndCrcoutReads := by
  refine ⟨fun b hb => ?_, fun b => ?_, fun s i j => ?_⟩
  · exact ⟨b.status, rfl, toNat_lt_16_of_reserved hb.reservedZero, rfl, rfl, rfl, rfl⟩
  · obtain ⟨hlo, hhi⟩ := b.crcout_bytes
    exact ⟨lowByte b.crcreg, highByte b.crcreg, rfl, rfl, congrArg some hlo, congrArg some hhi⟩
  · exact ⟨_, step_read i s, by rw [answerRead_block]⟩

end Sys2Proof.Machine
end

section
/-! PROOF. O16, O50: the block holds its state while idle, and what recording an error does to STATUS
(70_reset_and_hazards.md R175, 60_exceptions.md R160, R163). -/

namespace Sys2Proof.Machine

/-! ## Idle steps (O16) -/

/-- Settles O16, by induction on the number of steps: the first one holds the state. -/
theorem stateIsHeldWhileIdle : Obligations.StateIsHeldWhileIdle := by
  intro s n hidle
  induction n with
  | zero => rfl
  | succ n ih => exact (run_succ_of_step (step_idle hidle) n).trans ih

/-! ## Recording an error (O50) -/

/-- Recording an error that has a STATUS bit sets that bit (R11, R160). -/
theorem Block.record_of_statusBit {e : ErrorKind} {k : StatusBit} (h : e.statusBit? = some k) (b : Block) :
    b.record e = b.raise k := by
  rw [Block.record, h]

/-- Only FormatError has no STATUS bit (R163). -/
theorem ErrorKind.exists_statusBit {e : ErrorKind} (h : e ≠ .format) : ∃ k, e.statusBit? = some k := by
  cases e with
  | checksum => exact ⟨.chkerr, rfl⟩
  | illegalCommand => exact ⟨.illegal, rfl⟩
  | format => exact absurd rfl h

/-- Raising a bit leaves it set at its position in STATUS (R28). -/
theorem Block.raise_getLsbD_position (k : StatusBit) (b : Block) : (b.raise k).status.getLsbD k.position = true := by
  have hset : statusBit k (statusSet k b.status) = true := by simp
  exact hset

/-- Settles O50: a recorded error raises the bit at its code. -/
theorem errorCodesAndBits : Obligations.ErrorCodesAndBits := by
  refine ⟨⟨rfl, rfl, rfl⟩, fun b => ⟨rfl, rfl, rfl⟩, fun b e he => ?_⟩
  obtain ⟨k, hk⟩ := ErrorKind.exists_statusBit he
  rw [Block.record_of_statusBit hk, ErrorKind.code_eq_position hk]
  exact b.raise_getLsbD_position k

end Sys2Proof.Machine
end

section
/-! PROOF. O37, O51: ChecksumError is recorded by a VERIFY that mismatches, is not sticky, and is raised by nothing else
(60_exceptions.md R162, R166). -/

namespace Sys2Proof.Machine

/-! ## What a mismatch records (O37) -/

/-- Two bytes joined, as a number (R9). -/
theorem joinBytes_toNat (hi lo : Byte) : (joinBytes hi lo).toNat = hi.toNat * 256 + lo.toNat := by
  have hhi : hi.toNat < 2 ^ 8 := hi.isLt
  have hshift : hi.toNat <<< 8 = hi.toNat * 256 := Nat.shiftLeft_eq _ _
  have hor : hi.toNat <<< 8 ||| lo.toNat = hi.toNat <<< 8 + lo.toNat := (Nat.shiftLeft_add_eq_or_of_lt lo.isLt _).symm
  have hfits : hi.toNat <<< 8 % 2 ^ 16 = hi.toNat <<< 8 := Nat.mod_eq_of_lt (by omega)
  have hsetWidth (d : Byte) : (d.setWidth 16).toNat = d.toNat := BitVec.toNat_setWidth_of_le (by decide)
  rw [joinBytes, BitVec.toNat_or, BitVec.toNat_shiftLeft, hsetWidth, hsetWidth, hfits, hor, hshift]

/-- The received CRC as a number (R127). -/
theorem Block.received_toNat (b : Block) : b.received.toNat = b.rx[7].toNat * 256 + b.rx[6].toNat :=
  joinBytes_toNat _ _

/-- The 16-bit compare of VERIFY is the compare of the numbers (R127). -/
theorem Block.toNat_ne_received_iff (b : Block) (c : Word) :
    c.toNat ≠ b.rx[7].toNat * 256 + b.rx[6].toNat ↔ c ≠ b.received := by
  rw [← b.received_toNat, ne_eq, BitVec.toNat_inj]

/-- Settles O37: the verdict flags of VERIFY and of RXWR, with the received CRC as a number. -/
theorem checksumErrorIsRecorded : Obligations.ChecksumErrorIsRecorded := by
  refine ⟨fun s hne => ?_, fun s t ht => ?_, fun s k d => ?_⟩
  · have hmismatch : crc16 s.block.payload ≠ s.block.received := (s.block.toNat_ne_received_iff _).1 hne
    refine ⟨_, exec_eq .verify s, s.block.verify_chkerr_iff.2 hmismatch, ?_, s.block.verify_dcalc, ?_,
      s.block.verify_rx⟩
    · exact Bool.eq_false_iff.2 (mt s.block.verify_valid_iff.1 hmismatch)
    · exact (congrArg BitVec.toNat s.block.verify_drecv).trans s.block.received_toNat
  · obtain rfl : s.setBlock s.block.verify = t := Host.Outcome.next.inj ((exec_eq .verify s).symm.trans ht)
    rw [s.block.toNat_ne_received_iff]
    exact s.block.verify_chkerr_iff
  · obtain ⟨-, hchkerr, -⟩ := s.block.rxwr_flags k d
    exact ⟨_, exec_eq (.rxwr k d) s, hchkerr⟩

/-! ## Which word raises which error (O51) -/

/-- No command but VERIFY turns CHKERR on (R166). -/
theorem chkerr_of_blockAfter_chkerr {i : Instr} (hi : i ≠ .verify) {b : Block} (h : (blockAfter i b).chkerr = true) :
    b.chkerr = true := by
  obtain ⟨k, d, rfl⟩ | rfl | hsame := blockAfter_responsePart_cases i
  · obtain ⟨-, hchkerr, -⟩ := b.rxwr_flags k d
    exact absurd (hchkerr.symm.trans h) Bool.false_ne_true
  · exact absurd rfl hi
  · exact (congrArg ResponsePart.chkerr (hsame b)).symm.trans h

/-- No word but VERIFY's turns CHKERR on, illegal words included (R147, R166). -/
theorem chkerr_of_commandStep_chkerr {w : CmdWord} (hw : w ≠ 0x6000#16) {b : Block}
    (h : (commandStep b w).chkerr = true) : b.chkerr = true := by
  obtain ⟨-, i, hd, hstep⟩ | ⟨-, hstep⟩ := commandStep_cases w <;> rw [hstep] at h
  · have hverify : i ≠ .verify := fun hi => hw ((decodeWord_eq_ok_iff w .verify).1 (hi ▸ hd)).symm
    exact chkerr_of_blockAfter_chkerr hverify h
  · obtain ⟨-, hchkerr, -⟩ := b.raise_illegal_flags
    exact hchkerr.symm.trans h

/-- Settles O51: an illegal word is recorded alone, a legal one leaves ILLEGAL, and only VERIFY's word turns CHKERR on. -/
theorem atMostOneErrorPerCommand : Obligations.AtMostOneErrorPerCommand :=
  ⟨fun b _ hw => commandStep_of_illegal hw b, fun b w hw => by simp [commandStep_illegal, hw],
    fun _ _ hw => chkerr_of_commandStep_chkerr hw⟩

end Sys2Proof.Machine
end

section
/-! PROOF. O52, O1, O2: the state after reset and what follows from it (70_reset_and_hazards.md R180, R183). -/

namespace Sys2Proof.Machine

/-- Settles O52: the machine's invariant is the block's. -/
theorem invariantAtReset : Obligations.InvariantAtReset :=
  Block.inv_reset

/-! ## What reset loads (O1) -/

/-- The step that takes the reset signal sets the whole block and nothing else, whatever is presented (R180, R181). -/
theorem step_reset {s : State} {p : Option CmdWord} {rest : List HostEvent} (hp : s.pending = .reset p :: rest) :
    step s = .next { s with pending := rest, block := Block.reset } :=
  step_event hp

/-- Settles O1: the values are those of the definition, and of the steps that change ILLEGAL only reset lowers it. -/
theorem resetLoadsEveryRegister : Obligations.ResetLoadsEveryRegister := by
  refine ⟨⟨rfl, rfl, rfl, rfl, rfl, rfl, rfl, rfl, rfl, rfl⟩, fun s p => ⟨_, step_reset rfl, rfl⟩, ?_⟩
  intro s t hbefore hstep hafter
  obtain ⟨-, hset⟩ | ⟨hreset, -⟩ | hheld := step_illegal_cases hstep
  · exact absurd (hafter.symm.trans hset) Bool.false_ne_true
  · exact hreset
  · exact absurd (hafter.symm.trans (hheld.trans hbefore)) Bool.false_ne_true

/-! ## The commands right after reset (O2) -/

/-- VERIFY right after reset mismatches: zero is not the CRC of six zero bytes (R183). -/
theorem reset_mismatch : crc16 Block.reset.payload ≠ Block.reset.received := by
  have hvalid : ¬Block.reset.verify.valid = true :=
    (verify_zero_payload_valid_iff Block.reset 0x00 0x00).not.2 (by decide)
  exact mt Block.reset.verify_valid_iff.2 hvalid

/-- Settles O2: CRCREG holds the seed, BUILD's example is of the reset fields, and the all-zero RX does not check. -/
theorem resetConsequences : Obligations.ResetConsequences := by
  obtain ⟨-, -, hbuild, -⟩ := buildWritesWireImage
  refine ⟨⟨rfl, rfl⟩, fun p => Block.crcout_eq_crc16 ?_, hbuild, ?_⟩
  · rw [runWords_crcbytes]
    rfl
  · rw [runWords_cons, runWords_nil, commandStep_verify]
    exact ⟨Block.reset.verify_chkerr_iff.2 reset_mismatch,
      Bool.eq_false_iff.2 (mt Block.reset.verify_valid_iff.1 reset_mismatch)⟩

end Sys2Proof.Machine
end

section
/-! PROOF. O17, O18: a command sees the one just before it, and STATUS shows what is stale (70_reset_and_hazards.md R184
to R186). -/

namespace Sys2Proof.Machine

/-! ## Two adjacent commands (O17) -/

/-- Two commands' words run as the commands do, one after the other (R148). -/
theorem runWords_pair (b : Block) (i j : Instr) :
    runWords b [encode i, encode j] = blockAfter j (blockAfter i b) := by
  simp

/-- A field is the byte of its selector's number in the wire frame of the fields (R100, R103). -/
theorem Block.wireFrame_getElem?_index (b : Block) (f : FieldReg) :
    (wireFrame b.addr b.cmd b.sub b.flag)[f.index]? = some (b.field f) := by
  cases f <;> rfl

/-- BUILD right after FLDWR uses the new field (R185). -/
theorem build_after_fldwr (b : Block) (f : FieldReg) (d : Byte) :
    (b.fldwr f d).build.tx.toList[f.index]? = some d ∧
    (∀ g : FieldReg, (b.fldwr f d).build.field g = if g = f then d else b.field g) := by
  have hfield (g : FieldReg) : (b.fldwr f d).field g = if g = f then d else b.field g :=
    congrFun (congrArg FramePart.field (b.fldwr_framePart f d)) g
  refine ⟨((b.fldwr f d).wireFrame_getElem?_index f).trans ?_, fun g => ?_⟩
  · rw [hfield, if_pos rfl]
  · rw [← hfield]
    exact congrFun (congrArg FramePart.field (b.fldwr f d).build_framePart) g

/-- VERIFY leaves a verdict that tells whether the diagnostics it wrote agree (R127). -/
theorem Block.verify_verdict_iff (b : Block) :
    (b.verify.valid = true ↔ b.verify.dcalc = b.verify.drecv) ∧
    (b.verify.chkerr = true ↔ b.verify.dcalc ≠ b.verify.drecv) := by
  rw [verify_dcalc, verify_drecv]
  exact ⟨b.verify_valid_iff, b.verify_chkerr_iff⟩

/-- Settles O17: each pair of commands is run in order, and the second reads what the first has written. -/
theorem noHazards : Obligations.NoHazards := by
  refine ⟨fun b f d => ?_, fun b k d => ?_, fun s w i v hread => ?_, fun b d => ?_⟩
  · rw [runWords_pair]
    obtain ⟨hbyte, hfield⟩ := build_after_fldwr b f d
    exact ⟨hbyte, hfield, rfl⟩
  · rw [runWords_pair]
    exact ⟨(b.rxwr k d).verify_rx, (b.rxwr k d).verify_dcalc, (b.rxwr k d).verify_drecv,
      (b.rxwr k d).verify_verdict_iff⟩
  · exact readSeesEarlierCommands s [w] i v hread
  · rw [runWords_pair]
    rfl

/-! ## Stale data is shown (O18) -/

/-- A word that is not BUILD does not raise TXRDY, illegal words included (R28, R147). -/
theorem commandStep_txrdy_eq_false {w : CmdWord} (hw : decodeWord w ≠ .ok .build) {b : Block} (h : b.txrdy = false) :
    (commandStep b w).txrdy = false := by
  obtain ⟨-, i, hd, hstep⟩ | ⟨-, hstep⟩ := commandStep_cases w <;> rw [hstep]
  · obtain ⟨f, d, rfl⟩ | rfl | hsame := blockAfter_framePart_cases i
    · exact (b.fldwr_flags f d).1
    · exact absurd hd hw
    · exact (congrArg FramePart.txrdy (hsame b)).trans h
  · exact (congrArg FramePart.txrdy (Block.raise_framePart (by decide) b)).trans h

/-- A word that is not VERIFY does not raise VALID, illegal words included (R28, R147). -/
theorem commandStep_valid_eq_false {w : CmdWord} (hw : decodeWord w ≠ .ok .verify) {b : Block} (h : b.valid = false) :
    (commandStep b w).valid = false := by
  obtain ⟨-, i, hd, hstep⟩ | ⟨-, hstep⟩ := commandStep_cases w <;> rw [hstep]
  · obtain ⟨k, d, rfl⟩ | rfl | hsame := blockAfter_responsePart_cases i
    · exact (b.rxwr_flags k d).1
    · exact absurd hd hw
    · exact (congrArg ResponsePart.valid (hsame b)).trans h
  · exact (congrArg ResponsePart.valid (Block.raise_responsePart (by decide) (by decide) b)).trans h

/-- What each word of a run keeps, the run keeps (R148). -/
theorem runWords_invariant {P : Block → Prop} {ws : List CmdWord}
    (hstep : ∀ w ∈ ws, ∀ c, P c → P (commandStep c w)) {b : Block} (h : P b) : P (runWords b ws) :=
  List.foldlRecOn ws commandStep h fun c hc w hw => hstep w hw c hc

/-- Two mapped reads with no command between them answer from one and the same block (R47). -/
theorem run_two_reads {s : State} {i j : ReadIndex} {x y : Byte} (hx : readPort s.block i = some x)
    (hy : readPort s.block j = some y) :
    Host.Core.run core 2 { s with pending := .read i :: .read j :: s.pending } =
      .next { s with answers := s.answers ++ [⟨i, x⟩, ⟨j, y⟩] } := by
  have hfirst := step_read_mapped (s := { s with pending := .read i :: .read j :: s.pending }) rfl hx
  have hsecond := step_read_mapped
    (s := { s with pending := .read j :: s.pending, answers := s.answers ++ [⟨i, x⟩] }) rfl hy
  rw [run_succ_of_step hfirst, run_succ_of_step hsecond, List.append_assoc]
  rfl

/-- Settles O18: FLDWR lowers TXRDY and RXWR lowers VALID, which only BUILD and VERIFY raise; ILLEGAL tells that some
word of the run was illegal. -/
theorem staleDataIsShown : Obligations.StaleDataIsShown := by
  refine ⟨fun b f d ws hws => ?_, fun b k d ws hws => ?_, fun s i j x y => run_two_reads, fun b w ws hw => ?_⟩
  · obtain ⟨htxrdy, -⟩ := b.fldwr_flags f d
    rw [runWords_cons, commandStep_encode]
    exact Bool.eq_false_iff.1 <| runWords_invariant (P := fun c => c.txrdy = false)
      (fun w hw _ => commandStep_txrdy_eq_false (hws w hw)) htxrdy
  · obtain ⟨hvalid, -⟩ := b.rxwr_flags k d
    rw [runWords_cons, commandStep_encode]
    exact Bool.eq_false_iff.1 <| runWords_invariant (P := fun c => c.valid = false)
      (fun w hw _ => commandStep_valid_eq_false (hws w hw)) hvalid
  · have hillegal : (runWords b (w :: ws)).illegal = true :=
      (runWords_illegal b (w :: ws)).2 (.inr ⟨w, List.mem_cons_self, hw⟩)
    exact fun hlegal => Bool.false_ne_true (hlegal.symm.trans hillegal)

end Sys2Proof.Machine
end
